-- ==== Sys2Proof/Word.lean ====
section
/-! DEFINITION. The words, bytes, symbols, node indices and code bit strings of HUFDEC (00_scope.md R12, R14, R15). -/

namespace Sys2Proof

/-- A register or a command word: WORD_BITS = 32 (00_scope.md R12). -/
abbrev Word := BitVec 32

/-- A character or a symbol byte: CHAR_BITS = 8 (00_scope.md R12). -/
abbrev Byte := BitVec 8

/-- A symbol, 0 to 127: SYM_BITS = 7 (00_scope.md R12). -/
abbrev Sym := BitVec 7

/-- A node-memory index, 0 to 255: NODE_IDX_BITS = 8 (00_scope.md R12). -/
abbrev NodeIdx := BitVec 8

/-- A code: its first element is the bit nearest the root (00_scope.md R15); `false` is bit 0 (left), `true` bit 1. -/
abbrev Code := List Bool

end Sys2Proof
end

