-- ==== Sys2Proof/Syntax.lean ====
section
/-! DEFINITION. The fifteen commands of spec/opcode_table.json (30_encoding.md R74), with their operands as R72 and R73
give them. -/

namespace Sys2Proof

/-- A node of the tree image: the "tagged variant" of 00_scope.md R18. -/
inductive Node where
  /-- A leaf holding symbol `s`. -/
  | leaf (s : Sym)
  /-- An internal node: left child `l`, right child `r`. -/
  | internal (l r : NodeIdx)
  deriving DecidableEq, Repr

/-- A command. Each constructor is one row of spec/opcode_table.json. -/
inductive Instr where
  /-- NOP (40_control.md R83). -/
  | nop
  /-- CLEAR (40_control.md R84). -/
  | clear
  /-- CLR_ERR (40_control.md R85). -/
  | clrErr
  /-- SET_CFG, format C: the five flag bits, bit 0 STRICT_ALPHA to bit 4 IRQ_ENC_EN (40_control.md R86). -/
  | setCfg (flags : BitVec 5)
  /-- NODE_WR, format W: LEAF = 1 with SYM, or LEAF = 0 with LEFT and RIGHT (41_tree.md R88). -/
  | nodeWr (idx : NodeIdx) (node : Node)
  /-- SET_ROOT, format I (41_tree.md R89). -/
  | setRoot (idx : NodeIdx)
  /-- NODE_RD, format I (41_tree.md R91). -/
  | nodeRd (idx : NodeIdx)
  /-- GEN_TABLE (43_codegen_encode.md R100). -/
  | genTable
  /-- CODE_RD, format P: PART is 0 to 4 (43_codegen_encode.md R104). -/
  | codeRd (sym : Sym) (part : BitVec 3)
  /-- DEC_START (42_decode.md R94). -/
  | decStart
  /-- DEC_CHR, format B (42_decode.md R95). -/
  | decChr (ch : Byte)
  /-- DEC_END (42_decode.md R97). -/
  | decEnd
  /-- ENC_START (43_codegen_encode.md R105). -/
  | encStart
  /-- ENC_SYM, format B: the byte is not narrowed to 7 bits (30_encoding.md R73; 43_codegen_encode.md R106). -/
  | encSym (b : Byte)
  /-- ENC_END (43_codegen_encode.md R107). -/
  | encEnd
  deriving DecidableEq, Repr

end Sys2Proof
end

