-- ==== Sys2Proof/WellFormed.lean ====
section
/-! DEFINITION. Which commands have an encoding: the operand types already hold every range of 30_encoding.md R73 but
PART's, whose values 5 to 7 are reserved (R72). -/

namespace Sys2Proof

/-- The command has an encoding (30_encoding.md R72, R73). -/
def Instr.wellFormed : Instr → Bool
  | .nop => true
  | .clear => true
  | .clrErr => true
  | .setCfg _ => true
  | .nodeWr _ _ => true
  | .setRoot _ => true
  | .nodeRd _ => true
  | .genTable => true
  | .codeRd _ part => decide (part.toNat ≤ 4)
  | .decStart => true
  | .decChr _ => true
  | .decEnd => true
  | .encStart => true
  | .encSym _ => true
  | .encEnd => true

end Sys2Proof
end

