-- ==== Sys2Proof/Decode.lean ====
section
/-! DEFINITION. Decoding a command word (30_encoding.md R76), total on every 32-bit word and refusing by name; the
encoder (R72, R74); the opcode map as a table of match and mask (R74). -/

namespace Sys2Proof

/-- The two refusals of 30_encoding.md R76. -/
inductive DecodeError where
  /-- OPC = 0xF: the word raises BAD_OPCODE (30_encoding.md R75). -/
  | badOpcode
  /-- A reserved operand bit is 1, or PART is over 4: the word raises BAD_OPERAND (30_encoding.md R75). -/
  | badOperand
  deriving DecidableEq, Repr

/-- Bits [31:28], the opcode (30_encoding.md R71). -/
def wordOpcode (w : Word) : BitVec 4 := w.extractLsb' 28 4

/-- Bits [7:0]: a format I index, a format B byte, LEFT, and the DETAIL byte of a refused word. -/
def wordByte0 (w : Word) : Byte := w.extractLsb' 0 8

/-- Bits [15:8]: RIGHT, and the DETAIL2 byte of a refused word. -/
def wordByte1 (w : Word) : Byte := w.extractLsb' 8 8

/-- `i` when the reserved bits `reserved` are all 0, else the refusal BAD_OPERAND. -/
def ifReservedZero {n : Nat} (reserved : BitVec n) (i : Instr) : Except DecodeError Instr :=
  if reserved = 0 then .ok i else .error .badOperand

/-- Format W (30_encoding.md R72): IDX [27:20], [19:17] reserved, LEAF [16], then SYM or RIGHT and LEFT. -/
def decodeNodeWr (w : Word) : Except DecodeError Instr :=
  if w.extractLsb' 17 3 = 0 then
    if w.extractLsb' 16 1 = 1 then
      ifReservedZero (w.extractLsb' 7 9) (.nodeWr (w.extractLsb' 20 8) (.leaf (w.extractLsb' 0 7)))
    else .ok (.nodeWr (w.extractLsb' 20 8) (.internal (wordByte0 w) (wordByte1 w)))
  else .error .badOperand

/-- Format P (30_encoding.md R72): SYM [6:0], [7] reserved, PART [10:8] at most 4, [27:11] reserved. -/
def decodeCodeRd (w : Word) : Except DecodeError Instr :=
  if w.extractLsb' 11 17 = 0 ∧ w.extractLsb' 7 1 = 0 ∧ (w.extractLsb' 8 3).toNat ≤ 4 then
    .ok (.codeRd (w.extractLsb' 0 7) (w.extractLsb' 8 3))
  else .error .badOperand

/-- The decoder of 30_encoding.md R76. It never looks at the state. -/
def decode (w : Word) : Except DecodeError Instr :=
  let operand := w.extractLsb' 0 28
  match (wordOpcode w).toNat with
  | 0x0 => ifReservedZero operand .nop
  | 0x1 => ifReservedZero operand .clear
  | 0x2 => ifReservedZero operand .clrErr
  | 0x3 => ifReservedZero (w.extractLsb' 5 23) (.setCfg (w.extractLsb' 0 5))
  | 0x4 => decodeNodeWr w
  | 0x5 => ifReservedZero (w.extractLsb' 8 20) (.setRoot (wordByte0 w))
  | 0x6 => ifReservedZero (w.extractLsb' 8 20) (.nodeRd (wordByte0 w))
  | 0x7 => ifReservedZero operand .genTable
  | 0x8 => decodeCodeRd w
  | 0x9 => ifReservedZero operand .decStart
  | 0xA => ifReservedZero (w.extractLsb' 8 20) (.decChr (wordByte0 w))
  | 0xB => ifReservedZero operand .decEnd
  | 0xC => ifReservedZero operand .encStart
  | 0xD => ifReservedZero (w.extractLsb' 8 20) (.encSym (wordByte0 w))
  | 0xE => ifReservedZero operand .encEnd
  | _ => .error .badOpcode

/-- The opcode of a command (30_encoding.md R74). -/
def opcode : Instr → BitVec 4
  | .nop => 0x0#4
  | .clear => 0x1#4
  | .clrErr => 0x2#4
  | .setCfg _ => 0x3#4
  | .nodeWr _ _ => 0x4#4
  | .setRoot _ => 0x5#4
  | .nodeRd _ => 0x6#4
  | .genTable => 0x7#4
  | .codeRd _ _ => 0x8#4
  | .decStart => 0x9#4
  | .decChr _ => 0xA#4
  | .decEnd => 0xB#4
  | .encStart => 0xC#4
  | .encSym _ => 0xD#4
  | .encEnd => 0xE#4

/-- Bits [16:0] of a node, in NODE_WR and in the word NODE_RD returns (30_encoding.md R72, R77): LEAF, then SYM, or RIGHT
and LEFT. -/
def nodeBits : Node → BitVec 17
  | .leaf s => 1#1 ++ 0#9 ++ s
  | .internal l r => 0#1 ++ r ++ l

/-- Bits [27:0] of a command (30_encoding.md R72). -/
def operandBits : Instr → BitVec 28
  | .nop => 0#28
  | .clear => 0#28
  | .clrErr => 0#28
  | .setCfg flags => 0#23 ++ flags
  | .nodeWr idx node => idx ++ 0#3 ++ nodeBits node
  | .setRoot idx => 0#20 ++ idx
  | .nodeRd idx => 0#20 ++ idx
  | .genTable => 0#28
  | .codeRd sym part => 0#17 ++ part ++ 0#1 ++ sym
  | .decStart => 0#28
  | .decChr ch => 0#20 ++ ch
  | .decEnd => 0#28
  | .encStart => 0#28
  | .encSym b => 0#20 ++ b
  | .encEnd => 0#28

/-- The word of a command (30_encoding.md R71). -/
def encode (i : Instr) : Word := opcode i ++ operandBits i

/-- The conditions in brackets of 30_encoding.md R74's mask column. -/
inductive ExtraCondition where
  /-- None. -/
  | always
  /-- NODE_WR: [15:7] = 0 when [16] = 1. -/
  | leafFieldZero
  /-- CODE_RD: [10:8] at most 4. -/
  | partAtMostFour
  deriving DecidableEq, Repr

/-- A row of the opcode map (30_encoding.md R74). -/
structure OpcodeRow where
  opc : BitVec 4
  pattern : Word
  mask : Word
  extra : ExtraCondition
  deriving DecidableEq, Repr

/-- The opcode map of 30_encoding.md R74, in its order, without the reserved opcode 0xF. -/
def opcodeMap : List OpcodeRow :=
  [ ⟨0x0#4, 0x00000000#32, 0xFFFFFFFF#32, .always⟩, ⟨0x1#4, 0x10000000#32, 0xFFFFFFFF#32, .always⟩,
    ⟨0x2#4, 0x20000000#32, 0xFFFFFFFF#32, .always⟩, ⟨0x3#4, 0x30000000#32, 0xFFFFFFE0#32, .always⟩,
    ⟨0x4#4, 0x40000000#32, 0xF00E0000#32, .leafFieldZero⟩, ⟨0x5#4, 0x50000000#32, 0xFFFFFF00#32, .always⟩,
    ⟨0x6#4, 0x60000000#32, 0xFFFFFF00#32, .always⟩, ⟨0x7#4, 0x70000000#32, 0xFFFFFFFF#32, .always⟩ ] ++
  [ ⟨0x8#4, 0x80000000#32, 0xFFFFF880#32, .partAtMostFour⟩, ⟨0x9#4, 0x90000000#32, 0xFFFFFFFF#32, .always⟩,
    ⟨0xA#4, 0xA0000000#32, 0xFFFFFF00#32, .always⟩, ⟨0xB#4, 0xB0000000#32, 0xFFFFFFFF#32, .always⟩,
    ⟨0xC#4, 0xC0000000#32, 0xFFFFFFFF#32, .always⟩, ⟨0xD#4, 0xD0000000#32, 0xFFFFFF00#32, .always⟩,
    ⟨0xE#4, 0xE0000000#32, 0xFFFFFFFF#32, .always⟩ ]

/-- Whether the extra condition holds of a word. -/
def extraHolds (w : Word) : ExtraCondition → Bool
  | .always => true
  | .leafFieldZero => decide (w.extractLsb' 16 1 = 1#1 → w.extractLsb' 7 9 = 0#9)
  | .partAtMostFour => decide ((w.extractLsb' 8 3).toNat ≤ 4)

/-- The word spells the row's command: "(w & mask_X) = match_X and X's extra condition holds" (30_encoding.md R74). -/
def spells (w : Word) (row : OpcodeRow) : Bool := decide (w &&& row.mask = row.pattern) && extraHolds w row.extra

/-- The instruction the decoder reads from a word given as a number, bit 0 the least significant; the bits from `nbits`
on are 0. -/
def decodeTableWord (nbits w : Nat) : Option Instr := (decode (BitVec.ofNat 32 (w % 2 ^ nbits))).toOption

end Sys2Proof
end

