-- ==== Sys2Proof/Config.lean ====
section
/-! DEFINITION. The implementation parameters of 00_scope.md R12: the fixed ones as numbers, the ones the spec leaves
open (92_eei_decisions.md O1, O3, O4) as constants without a body, so that no proof can lean on a value of them. -/

namespace Sys2Proof

/-- NUM_SYMS, the number of symbols (00_scope.md R12). -/
abbrev Config.numSyms : Nat := 128

/-- NODE_COUNT, the entries of the node memory (00_scope.md R12). -/
abbrev Config.nodeCount : Nat := 256

/-- MAX_CODE_LEN (00_scope.md R12, R13). -/
abbrev Config.maxCodeLen : Nat := 127

/-- The two FIFO depths, the parameters an operation of the machine takes as an argument (00_scope.md R12). -/
structure Params where
  /-- SYM_FIFO_DEPTH. -/
  symFifoDepth : Nat
  /-- ENC_FIFO_DEPTH. -/
  encFifoDepth : Nat
  deriving DecidableEq, Repr

/-- The ranges of 00_scope.md R12: SYM_FIFO_DEPTH 1 to 255, ENC_FIFO_DEPTH 127 to 255. -/
abbrev Params.inRange (P : Params) : Prop :=
  (1 ≤ P.symFifoDepth ∧ P.symFifoDepth ≤ 255) ∧ (127 ≤ P.encFifoDepth ∧ P.encFifoDepth ≤ 255)

/-- The reference values, which every vector of 95_test_vectors.md assumes (00_scope.md R12). -/
def Params.reference : Params := { symFifoDepth := 16, encFifoDepth := 128 }

/-- SYM_FIFO_DEPTH less 1: any of its 255 values (92_eei_decisions.md O3; log 7). -/
opaque Config.symDepthIndex : Fin 255

/-- ENC_FIFO_DEPTH less 127: any of its 129 values (92_eei_decisions.md O4; log 7). -/
opaque Config.encDepthIndex : Fin 129

/-- BASE divided by 64: BASE is any 64-byte-aligned address (92_eei_decisions.md O1; log 8). -/
opaque Config.baseBlock : Nat

/-- The FIFO depths of this HUFDEC: every pair of values in the ranges of 00_scope.md R12 is possible. -/
def Config.params : Params :=
  { symFifoDepth := Config.symDepthIndex.val + 1, encFifoDepth := Config.encDepthIndex.val + 127 }

/-- BASE, the address of the register window in the host's address space (20_memory.md R62). -/
def Config.base : Nat := 64 * Config.baseBlock

end Sys2Proof
end

