-- ==== Sys2Proof/Machine/State.lean ====
section
/-! DEFINITION. The state of one HUFDEC (10_state.md R25), every component of it, with the model's own agenda and
observation beside it; the state after reset (R54); the reasons a step could stop. -/

namespace Sys2Proof.Machine

/-- A memory of HUFDEC: its entries as pairs of index and content, indices strictly rising. An index that is not listed
holds `none`, the content after reset (10_state.md R54; log 9). -/
abbrev Mem (α : Type) := List (Nat × α)

/-- The decoder's states (10_state.md R45). -/
inductive DecState where
  /-- No decode call is open. -/
  | idle
  /-- A call is open and consuming characters. -/
  | walk
  /-- The call was ended by an error. -/
  | aborted
  deriving DecidableEq, Repr

/-- The encoder's states (10_state.md R46). -/
inductive EncState where
  /-- No encode call is open. -/
  | idle
  /-- A call is open. -/
  | active
  /-- The call was ended by UNMAPPED. -/
  | aborted
  deriving DecidableEq, Repr

/-- The errors (60_exceptions.md R131), in the order of their codes 1 to 11. -/
inductive Err where
  | badOpcode | badOperand | rejBusy | rejState | rejFull | treeMalformed | badChar | badPath | truncated | unmapped
  | badAddr
  deriving DecidableEq, Repr

/-- The first-error latch (10_state.md R34). -/
structure ErrInfo where
  /-- V: an error has been latched. -/
  v : Bool
  /-- OPC: the opcode of the command that raised it. -/
  opc : BitVec 4
  detail2 : Byte
  detail : Byte
  code : BitVec 4
  deriving DecidableEq, Repr

/-- The sixteen registers of the window, in the order of their offsets (10_state.md R27). -/
inductive Reg where
  | cmd | id | caps | status | err | errInfo | cfg | root | cur | rdata | symOut | encOut | decNchr | decNsym | encNsym
  | encNbits
  deriving DecidableEq, Repr

/-- A host transaction: it moves one whole 32-bit word of one register (20_memory.md R59; 44_host_reads.md R109). -/
inductive Transaction where
  /-- `Read(k)`. -/
  | read (r : Reg)
  /-- `Write(k, d)`. -/
  | write (r : Reg) (d : Word)
  deriving DecidableEq, Repr

/-- One step to come (20_memory.md R64; 44_host_reads.md R109). DESIGN CHOICE (log 1). -/
inductive Event where
  /-- The host issues a transaction. -/
  | host (t : Transaction)
  /-- The ENGINE's turn: its step occurs if it is enabled (log 4). -/
  | engine
  /-- The reset input. -/
  | reset
  deriving DecidableEq, Repr

/-- The state of one HUFDEC: the components of 10_state.md R25, under its names, and the model's `agenda` and `reads`. -/
structure State where
  /-- CFG: bit 0 STRICT_ALPHA, 1 STRICT_END, 2 IRQ_ERR_EN, 3 IRQ_SYM_EN, 4 IRQ_ENC_EN (R35). -/
  cfg : BitVec 5
  /-- The sticky error flags (R33). -/
  err : BitVec 11
  /-- The first-error latch (R34). -/
  errInfo : ErrInfo
  /-- The node memory (R48). -/
  nodes : Mem Node
  /-- The index of the root node (R36). -/
  root : NodeIdx
  /-- The code table (R49). -/
  code : Mem Code
  /-- The code table is the result of a successful GEN_TABLE on the current tree image (R49). -/
  tableValid : Bool
  /-- A GEN_TABLE is pending (R51). -/
  busy : Bool
  /-- The decoder's state (R45). -/
  decState : DecState
  /-- The walker's current node index (R43). -/
  cur : NodeIdx
  /-- The length of the partial path from `root` to `cur` (R43). -/
  depth : BitVec 8
  /-- Decoded symbols not yet read, oldest first (R50). -/
  symFifo : List Sym
  /-- Characters consumed in this decode call (R41). -/
  decNchr : Word
  /-- Symbols emitted in this decode call (R41). -/
  decNsym : Word
  /-- The encoder's state (R46). -/
  encState : EncState
  /-- Code bits produced and not yet read, oldest first (R50). -/
  encFifo : List Bool
  /-- Symbols encoded in this encode call (R42). -/
  encNsym : Word
  /-- Code bits produced in this encode call (R42). -/
  encNbits : Word
  /-- The read-back data of the last NODE_RD or CODE_RD (R38). -/
  rdata : Word
  /-- The model's own: the steps still to come, next one first. DESIGN CHOICE (log 1). -/
  agenda : List Event
  /-- The model's own: the values the host's reads returned, in order (70_reset_and_hazards.md R163; log 2). -/
  reads : List Word
  deriving DecidableEq, Repr

/-- The state after a hardware reset (10_state.md R54: "None is unspecified"), with no step to come and no read made. -/
def State.reset : State where
  cfg := 0b00011#5
  err := 0
  errInfo := { v := false, opc := 0, detail2 := 0, detail := 0, code := 0 }
  nodes := []
  root := 0
  code := []
  tableValid := false
  busy := false
  decState := .idle
  cur := 0
  depth := 0
  symFifo := []
  decNchr := 0
  decNsym := 0
  encState := .idle
  encFifo := []
  encNsym := 0
  encNbits := 0
  rdata := 0
  agenda := []
  reads := []

/-- The faults of a step: none. No behaviour of HUFDEC stops it: every command word, legal or not, has a defined effect
and every transaction completes (20_memory.md R60; 93_implementation_defined.md rows 13 and 20; log 18). -/
inductive Fault where
  deriving DecidableEq, Repr

/-- The refusals. No step answers one; the last three belong to the bus bridge beside the machine (log 8). -/
inductive Refusal where
  /-- An instruction without a meaning yet, raised by no arm of exec: safe. -/
  | notModelled (mnemonic : String)
  /-- Raised by translateAccess: the access does not move exactly one 32-bit word (20_memory.md R59): safe. -/
  | notWholeWord
  /-- Raised by translateAccess: the address lies outside the 64-byte window (20_memory.md R62): safe. -/
  | outsideWindow
  /-- Raised by translateAccess: the offset is no multiple of 4 (20_memory.md R59): safe. -/
  | misaligned
  deriving DecidableEq, Repr

end Sys2Proof.Machine
end

