-- ==== Sys2Proof/Machine/Flags.lean ====
section
/-! DEFINITION. Every flag of HUFDEC: the CFG bits (10_state.md R35), the ERR bits and codes (R33; 60_exceptions.md R131),
the interrupt output (R52), STATUS (R32), CAPS (R31) and the ERR_INFO word (R34). -/

namespace Sys2Proof.Machine

/-- CFG bit 0 (10_state.md R35). -/
def strictAlpha (cfg : BitVec 5) : Bool := cfg.getLsbD 0

/-- CFG bit 1 (10_state.md R35). -/
def strictEnd (cfg : BitVec 5) : Bool := cfg.getLsbD 1

/-- CFG bit 2 (10_state.md R35). -/
def irqErrEn (cfg : BitVec 5) : Bool := cfg.getLsbD 2

/-- CFG bit 3 (10_state.md R35). -/
def irqSymEn (cfg : BitVec 5) : Bool := cfg.getLsbD 3

/-- CFG bit 4 (10_state.md R35). -/
def irqEncEn (cfg : BitVec 5) : Bool := cfg.getLsbD 4

/-- The code of an error (60_exceptions.md R131). -/
def errCode : Err → BitVec 4
  | .badOpcode => 1#4
  | .badOperand => 2#4
  | .rejBusy => 3#4
  | .rejState => 4#4
  | .rejFull => 5#4
  | .treeMalformed => 6#4
  | .badChar => 7#4
  | .badPath => 8#4
  | .truncated => 9#4
  | .unmapped => 10#4
  | .badAddr => 11#4

/-- The ERR register with only this error's flag: bit code - 1 (10_state.md R33). -/
def errFlag (e : Err) : BitVec 11 := 1#11 <<< ((errCode e).toNat - 1)

/-- The interrupt output, a level (10_state.md R52; 60_exceptions.md R135). -/
def irq (s : State) : Bool :=
  (irqErrEn s.cfg && decide (s.err ≠ 0)) || (irqSymEn s.cfg && decide (0 < s.symFifo.length))
    || (irqEncEn s.cfg && decide (0 < s.encFifo.length))

/-- The STATUS code of a decoder state (10_state.md R32). -/
def decStateCode : DecState → BitVec 2
  | .idle => 0#2
  | .walk => 1#2
  | .aborted => 2#2

/-- The STATUS code of an encoder state (10_state.md R32). -/
def encStateCode : EncState → BitVec 2
  | .idle => 0#2
  | .active => 1#2
  | .aborted => 2#2

/-- STATUS[7:0] (10_state.md R32): ERR_ANY, AT_ROOT, TABLE_VALID, BUSY, ENC_STATE, DEC_STATE from bit 7 down. It is the
DETAIL byte of REJ_STATE (40_control.md R82). -/
def statusByte (s : State) : Byte :=
  BitVec.ofBool (decide (s.err ≠ 0)) ++ BitVec.ofBool (decide (s.depth = 0)) ++ BitVec.ofBool s.tableValid
    ++ BitVec.ofBool s.busy ++ encStateCode s.encState ++ decStateCode s.decState

/-- STATUS (10_state.md R32), from the state now: ENC_CNT, SYM_CNT, reserved, IRQ, ENC_AVAIL, SYM_AVAIL, DEC_IN_RDY from
bit 31 down, then STATUS[7:0] (log 12 on the two counts). -/
def status (P : Params) (s : State) : Word :=
  BitVec.ofNat 8 s.encFifo.length ++ BitVec.ofNat 8 s.symFifo.length ++ 0#4 ++ BitVec.ofBool (irq s)
    ++ BitVec.ofBool (decide (0 < s.encFifo.length)) ++ BitVec.ofBool (decide (0 < s.symFifo.length))
    ++ BitVec.ofBool (decide (s.symFifo.length < P.symFifoDepth)) ++ statusByte s

/-- CAPS (10_state.md R31): NODEMAX, MAXLEN, ENC_DEPTH, SYM_DEPTH from bit 31 down. -/
def caps (P : Params) : Word :=
  BitVec.ofNat 8 (Config.nodeCount - 1) ++ BitVec.ofNat 8 Config.maxCodeLen ++ BitVec.ofNat 8 P.encFifoDepth
    ++ BitVec.ofNat 8 P.symFifoDepth

/-- The ERR_INFO word (10_state.md R34; 44_host_reads.md R112). -/
def errInfoWord (e : ErrInfo) : Word := BitVec.ofBool e.v ++ 0#3 ++ e.opc ++ e.detail2 ++ e.detail ++ 0#4 ++ e.code

end Sys2Proof.Machine
end

