-- ==== Sys2Proof/Machine/Ops.lean ====
section
/-! DEFINITION. The named operations over the two memories, the FIFOs and the error record (00_scope.md R17); taking an
error, `raise` (60_exceptions.md R132), which is this hardware's exception entry, and `clearErrors` beside it, the only
return (40_control.md R85; 60_exceptions.md R139); the checks every command goes through (40_control.md R82;
60_exceptions.md R133). -/

namespace Sys2Proof.Machine

/-- `Node(i)`, `Code(s)`: the content of an entry (00_scope.md R17). -/
def Mem.read {α : Type} : Mem α → Nat → Option α
  | [], _ => none
  | (b, v) :: m, a => if a = b then some v else Mem.read m a

/-- `SetNode(i, n)` and the generator's `tbl[s] <- c`: write an entry (00_scope.md R17). It keeps the indices strictly
rising; writing `none`, what an unlisted entry holds, removes the entry. -/
def Mem.write {α : Type} : Mem α → Nat → Option α → Mem α
  | [], _, none => []
  | [], a, some v => [(a, v)]
  | (b, w) :: m, a, none => if a < b then (b, w) :: m else if a = b then m else (b, w) :: Mem.write m a none
  | (b, w) :: m, a, some v =>
    if a < b then (a, v) :: (b, w) :: m else if a = b then (a, v) :: m else (b, w) :: Mem.write m a (some v)

/-- The canonical form: every index below `size`, and indices strictly rising. -/
def Mem.wf {α : Type} (size : Nat) : Mem α → Bool
  | [] => true
  | [(a, _)] => decide (a < size)
  | (a, _) :: (b, v) :: m => decide (a < b) && Mem.wf size ((b, v) :: m)

/-- `Node(i)`, by an 8-bit index: every one is in range (20_memory.md R63). -/
def readNode (nodes : Mem Node) (i : NodeIdx) : Option Node := nodes.read i.toNat

/-- `Code(s)`, by a 7-bit symbol (20_memory.md R63). -/
def readCode (code : Mem Code) (s : Sym) : Option Code := code.read s.toNat

/-- The code of a symbol byte: a byte of 128 or more has none, and is not narrowed (30_encoding.md R73; 43_codegen_encode.md
R106). -/
def readCodeByte (code : Mem Code) (b : Byte) : Option Code := if 128 ≤ b.toNat then none else code.read b.toNat

/-- `raise E(d1, d2)` with the opcode recorded (60_exceptions.md R132): the sticky flag, and the latch if it is empty. -/
def raise (e : Err) (opc : BitVec 4) (d1 d2 : Byte) (s : State) : State :=
  { s with
    err := s.err ||| errFlag e
    errInfo := if s.errInfo.v then s.errInfo else { v := true, opc := opc, detail2 := d2, detail := d1, code := errCode e } }

/-- The error record emptied (40_control.md R85). -/
def clearErrors (s : State) : State := { s with err := State.reset.err, errInfo := State.reset.errInfo }

/-- `table_valid <- 0` and every `code[s] <- none` (41_tree.md R87; 43_codegen_encode.md R100). -/
def clearTable (s : State) : State := { s with tableValid := false, code := [] }

/-- `abort_dec`: the output void, the position and the counters kept (42_decode.md R95). -/
def abortDec (s : State) : State := { s with decState := .aborted, symFifo := [] }

/-- The encoder's abort (43_codegen_encode.md R106). -/
def abortEnc (s : State) : State := { s with encState := .aborted, encFifo := [] }

/-- Every component at its reset value (70_reset_and_hazards.md R149); the agenda and the reads stay (log 11). -/
def resetDevice (s : State) : State := { State.reset with agenda := s.agenda, reads := s.reads }

/-- The commands exempt from REJ_BUSY (40_control.md R82). -/
def busyExempt : Instr → Bool
  | .nop => true
  | .clear => true
  | .clrErr => true
  | .setCfg _ => false
  | .nodeWr _ _ => false
  | .setRoot _ => false
  | .nodeRd _ => false
  | .genTable => false
  | .codeRd _ _ => false
  | .decStart => false
  | .decChr _ => false
  | .decEnd => false
  | .encStart => false
  | .encSym _ => false
  | .encEnd => false

/-- `pre_X` (60_exceptions.md R133, the precondition table). -/
def precondition (s : State) : Instr → Bool
  | .nop => true
  | .clear => true
  | .clrErr => true
  | .setCfg _ => true
  | .nodeWr _ _ => decide (s.decState = .idle ∧ s.encState = .idle)
  | .setRoot _ => decide (s.decState = .idle ∧ s.encState = .idle)
  | .nodeRd _ => true
  | .genTable => decide (s.encState = .idle)
  | .codeRd _ _ => true
  | .decStart => decide (s.decState = .idle ∨ s.decState = .aborted)
  | .decChr _ => decide (s.decState ≠ .idle)
  | .decEnd => decide (s.decState ≠ .idle)
  | .encStart => decide (s.encState = .idle ∨ s.encState = .aborted)
  | .encSym _ => decide (s.encState ≠ .idle)
  | .encEnd => decide (s.encState ≠ .idle)

/-- The pipeline of 40_control.md R82 after decoding: REJ_BUSY, then REJ_STATE with STATUS[7:0] as it was before, then the
command's body. -/
def issue (i : Instr) (body : State → State) (s : State) : State :=
  if s.busy = true ∧ busyExempt i = false then raise .rejBusy (opcode i) 0 0 s
  else if precondition s i = false then raise .rejState (opcode i) (statusByte s) 0 s
  else body s

end Sys2Proof.Machine
end

