-- ==== Sys2Proof/Machine/Control.lean ====
section
/-! DEFINITION. The control commands (40_control.md R83 to R86). -/

namespace Sys2Proof.Machine

/-- NOP (40_control.md R83). -/
def execNop (s : State) : Host.Outcome State Fault Refusal := .next (issue .nop id s)

/-- The soft reset: every component at its reset value but `cfg`, `err` and `err_info` (40_control.md R84; 10_state.md
R55). -/
def bodyClear (s : State) : State :=
  { s with
    nodes := []
    root := 0
    code := []
    tableValid := false
    busy := false
    decState := .idle
    cur := 0
    depth := 0
    symFifo := []
    decNchr := 0
    decNsym := 0
    encState := .idle
    encFifo := []
    encNsym := 0
    encNbits := 0
    rdata := 0 }

/-- CLEAR (40_control.md R84). -/
def execClear (s : State) : Host.Outcome State Fault Refusal := .next (issue .clear bodyClear s)

/-- CLR_ERR (40_control.md R85). -/
def execClrErr (s : State) : Host.Outcome State Fault Refusal := .next (issue .clrErr clearErrors s)

/-- SET_CFG's body (40_control.md R86). -/
def bodySetCfg (flags : BitVec 5) (s : State) : State := { s with cfg := flags }

/-- SET_CFG (40_control.md R86). -/
def execSetCfg (flags : BitVec 5) (s : State) : Host.Outcome State Fault Refusal :=
  .next (issue (.setCfg flags) (bodySetCfg flags) s)

end Sys2Proof.Machine
end

