-- ==== Sys2Proof/Machine/Operands.lean ====
section
/-! DEFINITION. What the operands of commands stand for: the direction of a character (42_decode.md R93), the node word
(30_encoding.md R77), the code read-back word (R78), the character of a code bit (00_scope.md R15). -/

namespace Sys2Proof.Machine

/-- A branch of the walker (42_decode.md R93). -/
inductive Dir where
  | left | right
  deriving DecidableEq, Repr

/-- The direction of a character; `none` is INVALID (42_decode.md R93). -/
def dir (ch : Byte) (cfg : BitVec 5) : Option Dir :=
  if ch = 0x30#8 then some .left
  else if ch = 0x31#8 then some .right
  else if strictAlpha cfg = false then some .right
  else none

/-- The child in a direction: "`0` = descend left, else descend right" (42_decode.md R95). -/
def childIn (d : Dir) (l r : NodeIdx) : NodeIdx :=
  match d with
  | .left => l
  | .right => r

/-- The character of a code bit: 0x30 for 0, 0x31 for 1 (00_scope.md R15; 44_host_reads.md R114). -/
def bitChar (b : Bool) : Byte := if b then 0x31#8 else 0x30#8

/-- The word NODE_RD returns for an entry (30_encoding.md R77). -/
def nodeWord : Option Node → Word
  | none => 0#32
  | some n => 1#1 ++ 0#14 ++ nodeBits n

/-- The number whose bit `i` is the `i`-th element. -/
def bitsToNat : List Bool → Nat
  | [] => 0
  | b :: bs => b.toNat + 2 * bitsToNat bs

/-- The word CODE_RD returns for an entry and a part (30_encoding.md R78): part 0 is V and the length; part p from 1 on
holds elements 32(p - 1) to 32(p - 1) + 31, the first in bit 0. -/
def codeWord (c : Option Code) (part : BitVec 3) : Word :=
  match c with
  | none => 0#32
  | some c =>
    if part = 0 then 0x80000000#32 + BitVec.ofNat 32 c.length
    else BitVec.ofNat 32 (bitsToNat ((c.drop (32 * (part.toNat - 1))).take 32))

end Sys2Proof.Machine
end

