-- ==== Sys2Proof/Machine/Decoder.lean ====
section
/-! DEFINITION. The decoder, a walker over the tree image (42_decode.md R92 to R97). -/

namespace Sys2Proof.Machine

/-- What one character does to the walker at a position (42_decode.md R95). -/
inductive WalkResult where
  /-- The root is a leaf holding `s`: emit it, the position unchanged. -/
  | emitAtRoot (s : Sym)
  /-- A leaf holding `s` was reached: emit it and restart at the root. -/
  | emitAndRestart (s : Sym)
  /-- Descend to the internal node `c`. -/
  | descend (c : NodeIdx)
  /-- Raise the error with its two details and abort the call. -/
  | abort (e : Err) (d1 d2 : Byte)
  deriving DecidableEq, Repr

/-- The part of 42_decode.md R95 that looks at the child reached: `none`, a leaf, or an internal node within the depth
limit. -/
def walkChild (nodes : Mem Node) (depth : BitVec 8) (c : NodeIdx) : WalkResult :=
  match readNode nodes c with
  | none => .abort .treeMalformed c 1
  | some (.leaf s) => .emitAndRestart s
  | some (.internal _ _) => if Config.maxCodeLen ≤ depth.toNat + 1 then .abort .treeMalformed c 2 else .descend c

/-- The body of 42_decode.md R95 after the FIFO check: BAD_CHAR first, then the node at `cur`. -/
def walk (nodes : Mem Node) (cfg : BitVec 5) (cur : NodeIdx) (depth : BitVec 8) (ch : Byte) : WalkResult :=
  match dir ch cfg with
  | none => .abort .badChar ch depth
  | some d =>
    match readNode nodes cur with
    | none => .abort .treeMalformed cur 1
    | some (.leaf s) => match d with
      | .left => .emitAtRoot s
      | .right => .abort .badPath ch 0
    | some (.internal l r) => walkChild nodes depth (childIn d l r)

/-- DEC_START's body (42_decode.md R94). -/
def bodyDecStart (s : State) : State :=
  { s with decState := .walk, cur := s.root, depth := 0, symFifo := [], decNchr := 0, decNsym := 0 }

/-- What a walk result does to the state (42_decode.md R95). -/
def applyWalk (opc : BitVec 4) (r : WalkResult) (s : State) : State :=
  match r with
  | .emitAtRoot y => { s with symFifo := s.symFifo ++ [y], decNsym := s.decNsym + 1, decNchr := s.decNchr + 1 }
  | .emitAndRestart y =>
    { s with
      symFifo := s.symFifo ++ [y], decNsym := s.decNsym + 1, decNchr := s.decNchr + 1, cur := s.root, depth := 0 }
  | .descend c => { s with cur := c, depth := s.depth + 1, decNchr := s.decNchr + 1 }
  | .abort e d1 d2 => abortDec (raise e opc d1 d2 s)

/-- DEC_CHR's body with its precedence: ABORTED, then REJ_FULL, then the walk (42_decode.md R95, R96 item 1). -/
def bodyDecChr (P : Params) (ch : Byte) (s : State) : State :=
  if s.decState = .aborted then s
  else if s.symFifo.length = P.symFifoDepth then
    raise .rejFull (opcode (.decChr ch)) (BitVec.ofNat 8 s.symFifo.length) 1 s
  else applyWalk (opcode (.decChr ch)) (walk s.nodes s.cfg s.cur s.depth ch) s

/-- DEC_END's body (42_decode.md R97). -/
def bodyDecEnd (s : State) : State :=
  if s.decState = .walk ∧ s.depth ≠ 0 ∧ strictEnd s.cfg = true then
    { raise .truncated (opcode .decEnd) s.cur s.depth s with symFifo := [], decState := .idle, cur := s.root, depth := 0 }
  else { s with decState := .idle, cur := s.root, depth := 0 }

/-- DEC_START (42_decode.md R94). -/
def execDecStart (s : State) : Host.Outcome State Fault Refusal := .next (issue .decStart bodyDecStart s)

/-- DEC_CHR (42_decode.md R95). -/
def execDecChr (ch : Byte) (s : State) : Host.Outcome State Fault Refusal :=
  .next (issue (.decChr ch) (bodyDecChr Config.params ch) s)

/-- DEC_END (42_decode.md R97). -/
def execDecEnd (s : State) : Host.Outcome State Fault Refusal := .next (issue .decEnd bodyDecEnd s)

end Sys2Proof.Machine
end

