-- ==== Sys2Proof/Machine/Encoder.lean ====
section
/-! DEFINITION. The encoder (43_codegen_encode.md R105 to R107). -/

namespace Sys2Proof.Machine

/-- ENC_START's body (43_codegen_encode.md R105). -/
def bodyEncStart (s : State) : State := { s with encState := .active, encFifo := [], encNsym := 0, encNbits := 0 }

/-- The whole code pushed, first bit first, and counted (43_codegen_encode.md R106). -/
def pushCode (c : Code) (s : State) : State :=
  { s with
    encFifo := s.encFifo ++ c, encNsym := s.encNsym + 1, encNbits := s.encNbits + BitVec.ofNat 32 c.length }

/-- ENC_SYM's body with its precedence: ABORTED, then UNMAPPED, then REJ_FULL (43_codegen_encode.md R106). -/
def bodyEncSym (P : Params) (b : Byte) (s : State) : State :=
  if s.encState = .aborted then s
  else match readCodeByte s.code b with
    | none => abortEnc (raise .unmapped (opcode (.encSym b)) b 0 s)
    | some c =>
      if P.encFifoDepth < s.encFifo.length + c.length then
        raise .rejFull (opcode (.encSym b)) (BitVec.ofNat 8 s.encFifo.length) (BitVec.ofNat 8 c.length) s
      else pushCode c s

/-- ENC_START (43_codegen_encode.md R105). -/
def execEncStart (s : State) : Host.Outcome State Fault Refusal := .next (issue .encStart bodyEncStart s)

/-- ENC_SYM (43_codegen_encode.md R106). -/
def execEncSym (b : Byte) (s : State) : Host.Outcome State Fault Refusal :=
  .next (issue (.encSym b) (bodyEncSym Config.params b) s)

/-- ENC_END's body: the FIFO and the counters stay (43_codegen_encode.md R107). -/
def bodyEncEnd (s : State) : State := { s with encState := .idle }

/-- ENC_END (43_codegen_encode.md R107). -/
def execEncEnd (s : State) : Host.Outcome State Fault Refusal := .next (issue .encEnd bodyEncEnd s)

end Sys2Proof.Machine
end

