-- ==== Sys2Proof/Machine/Generator.lean ====
section
/-! DEFINITION. The code table generator: GEN_TABLE (43_codegen_encode.md R100), the traversal (R101), the ENGINE step
(R102), and CODE_RD (R104). -/

namespace Sys2Proof.Machine

/-- What the traversal returns (43_codegen_encode.md R101). -/
inductive GenResult where
  | ok (tbl : Mem Code)
  | fail (index : NodeIdx) (subcode : Byte)
  deriving DecidableEq, Repr

/-- A leaf visited: a second leaf for its symbol fails, else its code is recorded, which is "0" for a leaf root
(43_codegen_encode.md R101). -/
def visitLeaf (i : NodeIdx) (y : Sym) (p : Code) (tbl : Mem Code) : GenResult :=
  if (readCode tbl y).isSome then .fail i 3
  else .ok (tbl.write y.toNat (some (if p = [] then [false] else p)))

/-- The preorder traversal from the entry `i` reached by the path `p`, the left subtree first. `room` is MAX_CODE_LEN less
the length of `p`, so an internal node with no room left is one at depth 127 (43_codegen_encode.md R101; log 10). -/
def visit (nodes : Mem Node) (room : Nat) (i : NodeIdx) (p : Code) (tbl : Mem Code) : GenResult :=
  match readNode nodes i with
  | none => .fail i 1
  | some (.leaf y) => visitLeaf i y p tbl
  | some (.internal l r) =>
    match room with
    | 0 => .fail i 2
    | room + 1 =>
      match visit nodes room l (p ++ [false]) tbl with
      | .fail j sub => .fail j sub
      | .ok tbl => visit nodes room r (p ++ [true]) tbl

/-- `GenTable(nodes, root)` (43_codegen_encode.md R101). -/
def genTable (nodes : Mem Node) (root : NodeIdx) : GenResult := visit nodes Config.maxCodeLen root [] []

/-- The loop of 43_codegen_encode.md R101 as it is written there, with its explicit stack, top first, and `fuel` visits
at most: `none` when the fuel runs out. -/
def genLoop (nodes : Mem Node) : Nat → List (NodeIdx × Code) → Mem Code → Option GenResult
  | _, [], tbl => some (.ok tbl)
  | 0, _ :: _, _ => none
  | fuel + 1, (i, p) :: stack, tbl =>
    match readNode nodes i with
    | none => some (.fail i 1)
    | some (.leaf y) =>
      if (readCode tbl y).isSome then some (.fail i 3)
      else genLoop nodes fuel stack (tbl.write y.toNat (some (if p = [] then [false] else p)))
    | some (.internal l r) =>
      if Config.maxCodeLen ≤ p.length then some (.fail i 2)
      else genLoop nodes fuel ((l, p ++ [false]) :: (r, p ++ [true]) :: stack) tbl

/-- The bound on the visits that 43_codegen_encode.md R103 item 1 gives: 129 × 128. -/
def genFuel : Nat := 129 * 128

/-- The opcode an error of the ENGINE step records (60_exceptions.md R132). -/
def engineOpcode : BitVec 4 := 0x7#4

/-- The ENGINE step, taken while `busy` = 1 (43_codegen_encode.md R102): all or nothing. -/
def engineStep (s : State) : State :=
  match genTable s.nodes s.root with
  | .ok tbl => { s with code := tbl, tableValid := true, busy := false }
  | .fail i sub => { raise .treeMalformed engineOpcode i sub s with busy := false }

/-- GEN_TABLE's body (43_codegen_encode.md R100). -/
def bodyGenTable (s : State) : State := clearTable { s with busy := true }

/-- GEN_TABLE (43_codegen_encode.md R100). -/
def execGenTable (s : State) : Host.Outcome State Fault Refusal := .next (issue .genTable bodyGenTable s)

/-- CODE_RD's body (43_codegen_encode.md R104). -/
def bodyCodeRd (sym : Sym) (part : BitVec 3) (s : State) : State :=
  { s with rdata := codeWord (readCode s.code sym) part }

/-- CODE_RD (43_codegen_encode.md R104). -/
def execCodeRd (sym : Sym) (part : BitVec 3) (s : State) : Host.Outcome State Fault Refusal :=
  .next (issue (.codeRd sym part) (bodyCodeRd sym part) s)

end Sys2Proof.Machine
end

