-- ==== Sys2Proof/Machine/Tree.lean ====
section
/-! DEFINITION. The tree image commands (41_tree.md R87 to R91). -/

namespace Sys2Proof.Machine

/-- NODE_WR's body: the entry written, the table cleared (41_tree.md R88). -/
def bodyNodeWr (idx : NodeIdx) (node : Node) (s : State) : State :=
  clearTable { s with nodes := s.nodes.write idx.toNat (some node) }

/-- NODE_WR (41_tree.md R88). -/
def execNodeWr (idx : NodeIdx) (node : Node) (s : State) : Host.Outcome State Fault Refusal :=
  .next (issue (.nodeWr idx node) (bodyNodeWr idx node) s)

/-- SET_ROOT's body: the root named, the table cleared; `cur` stays (41_tree.md R89). -/
def bodySetRoot (idx : NodeIdx) (s : State) : State := clearTable { s with root := idx }

/-- SET_ROOT (41_tree.md R89). -/
def execSetRoot (idx : NodeIdx) (s : State) : Host.Outcome State Fault Refusal :=
  .next (issue (.setRoot idx) (bodySetRoot idx) s)

/-- NODE_RD's body (41_tree.md R91). -/
def bodyNodeRd (idx : NodeIdx) (s : State) : State := { s with rdata := nodeWord (readNode s.nodes idx) }

/-- NODE_RD (41_tree.md R91). -/
def execNodeRd (idx : NodeIdx) (s : State) : Host.Outcome State Fault Refusal :=
  .next (issue (.nodeRd idx) (bodyNodeRd idx) s)

end Sys2Proof.Machine
end

