-- ==== Sys2Proof/Machine/Dispatch.lean ====
section
/-! DEFINITION. One arm per command: what an accepted command word does (40_control.md R82). -/

namespace Sys2Proof.Machine

def exec (i : Instr) (s : State) : Host.Outcome State Fault Refusal :=
  match i with
  | .nop => Sys2Proof.Machine.execNop s
  | .clear => Sys2Proof.Machine.execClear s
  | .clrErr => Sys2Proof.Machine.execClrErr s
  | .setCfg flags => Sys2Proof.Machine.execSetCfg flags s
  | .nodeWr idx node => Sys2Proof.Machine.execNodeWr idx node s
  | .setRoot idx => Sys2Proof.Machine.execSetRoot idx s
  | .nodeRd idx => Sys2Proof.Machine.execNodeRd idx s
  | .genTable => Sys2Proof.Machine.execGenTable s
  | .codeRd sym part => Sys2Proof.Machine.execCodeRd sym part s
  | .decStart => Sys2Proof.Machine.execDecStart s
  | .decChr ch => Sys2Proof.Machine.execDecChr ch s
  | .decEnd => Sys2Proof.Machine.execDecEnd s
  | .encStart => Sys2Proof.Machine.execEncStart s
  | .encSym b => Sys2Proof.Machine.execEncSym b s
  | .encEnd => Sys2Proof.Machine.execEncEnd s

end Sys2Proof.Machine
end

