-- ==== Sys2Proof/Machine/Port.lean ====
section
/-! DEFINITION. The host port (44_host_reads.md R109 to R114): reads, with the two pops; writes, of which only the write to
CMD runs a command; and what each event of the agenda does. -/

namespace Sys2Proof.Machine

/-- The word index `k` of a register: its byte offset is `4k` (10_state.md R27). -/
def regIndex : Reg → BitVec 4
  | .cmd => 0#4
  | .id => 1#4
  | .caps => 2#4
  | .status => 3#4
  | .err => 4#4
  | .errInfo => 5#4
  | .cfg => 6#4
  | .root => 7#4
  | .cur => 8#4
  | .rdata => 9#4
  | .symOut => 10#4
  | .encOut => 11#4
  | .decNchr => 12#4
  | .decNsym => 13#4
  | .encNsym => 14#4
  | .encNbits => 15#4

/-- The register with a word index: "no offset is left unassigned" (10_state.md R27). -/
def regOfIndex (k : BitVec 4) : Reg :=
  match k.toNat with
  | 0 => .cmd
  | 1 => .id
  | 2 => .caps
  | 3 => .status
  | 4 => .err
  | 5 => .errInfo
  | 6 => .cfg
  | 7 => .root
  | 8 => .cur
  | 9 => .rdata
  | 10 => .symOut
  | 11 => .encOut
  | 12 => .decNchr
  | 13 => .decNsym
  | 14 => .encNsym
  | _ => .encNbits

/-- The byte offset of a register from BASE, which BAD_ADDR records (44_host_reads.md R111). -/
def regOffset (r : Reg) : Byte := 0#2 ++ regIndex r ++ 0#2

/-- The ID constant (10_state.md R30). -/
def idWord : Word := 0x48554631#32

/-- The value a read returns, from the state before it (44_host_reads.md R112 to R114). -/
def readValue (P : Params) (r : Reg) (s : State) : Word :=
  match r with
  | .cmd => 0#32
  | .id => idWord
  | .caps => caps P
  | .status => status P s
  | .err => 0#21 ++ s.err
  | .errInfo => errInfoWord s.errInfo
  | .cfg => 0#27 ++ s.cfg
  | .root => 0#24 ++ s.root
  | .cur => 0#16 ++ s.depth ++ s.cur
  | .rdata => s.rdata
  | .symOut => match s.symFifo with
    | [] => 0#32
    | y :: _ => 1#1 ++ 0#24 ++ y
  | .encOut => match s.encFifo with
    | [] => 0#32
    | b :: _ => 1#1 ++ 0#23 ++ bitChar b
  | .decNchr => s.decNchr
  | .decNsym => s.decNsym
  | .encNsym => s.encNsym
  | .encNbits => s.encNbits

/-- What a read does to the state: SYM_OUT and ENC_OUT pop, every other read nothing (10_state.md R28). -/
def readEffect (r : Reg) (s : State) : State :=
  match r with
  | .symOut => { s with symFifo := s.symFifo.tail }
  | .encOut => { s with encFifo := s.encFifo.tail }
  | .cmd => s
  | .id => s
  | .caps => s
  | .status => s
  | .err => s
  | .errInfo => s
  | .cfg => s
  | .root => s
  | .cur => s
  | .rdata => s
  | .decNchr => s
  | .decNsym => s
  | .encNsym => s
  | .encNbits => s

/-- `Read(k)`: the value returned joins the observation (44_host_reads.md R109; 70_reset_and_hazards.md R163). -/
def hostRead (P : Params) (r : Reg) (s : State) : State :=
  { readEffect r s with reads := s.reads ++ [readValue P r s] }

/-- `execute(w)`: decoding first, and a refused word only raises its error (40_control.md R82). -/
def execute (w : Word) (s : State) : Host.Outcome State Fault Refusal :=
  match decode w with
  | .error .badOpcode => .next (raise .badOpcode (wordOpcode w) (wordByte0 w) (wordByte1 w) s)
  | .error .badOperand => .next (raise .badOperand (wordOpcode w) (wordByte0 w) (wordByte1 w) s)
  | .ok i => exec i s

/-- `Write(k, d)`: a command for CMD, else BAD_ADDR with OPC = 0, the data ignored (44_host_reads.md R110, R111). -/
def hostWrite (r : Reg) (d : Word) (s : State) : Host.Outcome State Fault Refusal :=
  if r = .cmd then execute d s else .next (raise .badAddr 0 (regOffset r) 0 s)

/-- The ENGINE's turn: its step if it is enabled, else nothing (20_memory.md R65; log 4). -/
def engineTurn (s : State) : State := if s.busy = true then engineStep s else s

/-- One event (44_host_reads.md R109). -/
def perform (e : Event) (s : State) : Host.Outcome State Fault Refusal :=
  match e with
  | .host (.read r) => .next (hostRead Config.params r s)
  | .host (.write r d) => hostWrite r d s
  | .engine => .next (engineTurn s)
  | .reset => .next (resetDevice s)

/-- The next step: the first event of the agenda, taken from it; with none left, the ENGINE's step while it is pending, and
after that the block waits and keeps its state (60_exceptions.md R148; 70_reset_and_hazards.md R163; logs 3 and 5). -/
def advance (s : State) : Host.Outcome State Fault Refusal :=
  match s.agenda with
  | [] => .next (engineTurn s)
  | e :: rest => perform e { s with agenda := rest }

/-- The agenda with a write of the word to CMD as its next event (44_host_reads.md R110; log 6). -/
def withCommand (w : Word) (s : State) : State := { s with agenda := .host (.write .cmd w) :: s.agenda }

end Sys2Proof.Machine
end

