-- ==== Sys2Proof/Machine/Step.lean ====
section
/-! DEFINITION. One step of the machine, and the state whose next step issues a given command word. -/

namespace Sys2Proof.Machine

/-- One step (20_memory.md R64; 44_host_reads.md R109). -/
def step (s : State) : Host.Outcome State Fault Refusal := advance s

/-- `s` with the host's next transaction a write to CMD of the word `w`, the bits from `nbits` on 0 (log 6). -/
def State.withFetchWord (s : State) (nbits w : Nat) : State := withCommand (BitVec.ofNat 32 (w % 2 ^ nbits)) s

end Sys2Proof.Machine
end

