-- ==== Sys2Proof/Machine/Bridge.lean ====
section
/-! DEFINITION. The bus bridge beside the machine (20_memory.md R57, R59, R62): which access of a byte-addressed bus is a
transaction of the port, and the byte lanes of a register. No step uses it. -/

namespace Sys2Proof.Machine

/-- An access of a byte-addressed bus: `bytes` bytes at `addr`; a write carries data. -/
structure BusAccess where
  addr : Nat
  bytes : Nat
  data : Option Word
  deriving DecidableEq, Repr

/-- The transaction an access stands for, with the window at `base`. The port has no transaction for a sub-word,
multi-word or misaligned access, which is refused by name (20_memory.md R59; 92_eei_decisions.md D44; log 8). -/
def translateAccess (base : Nat) (a : BusAccess) : Except Refusal Transaction :=
  if a.bytes ≠ 4 then .error .notWholeWord
  else if a.addr < base ∨ base + 64 ≤ a.addr then .error .outsideWindow
  else if (a.addr - base) % 4 ≠ 0 then .error .misaligned
  else
    let r := regOfIndex (BitVec.ofNat 4 ((a.addr - base) / 4))
    match a.data with
    | none => .ok (.read r)
    | some d => .ok (.write r d)

/-- Byte lane `k`, 0 to 3, of a register word: bits [8k+7:8k] (20_memory.md R57). -/
def byteLane (w : Word) (k : Nat) : Byte := w.extractLsb' (8 * k) 8

end Sys2Proof.Machine
end

