-- ==== Sys2Proof/Machine/Calls.lean ====
section
/-! DEFINITION. What a whole decode or encode call returns, as a function of its input (42_decode.md R98;
43_codegen_encode.md R108). -/

namespace Sys2Proof.Machine

/-- The result of a call: the output, or the error with its details and the 0-based position in the input. -/
inductive CallResult (α : Type) where
  | ok (out : List α)
  | err (e : Err) (d1 d2 : Byte) (position : Nat)
  deriving DecidableEq, Repr

/-- The loop of `DecodeCall` from a walker position, with the output so far and the number of characters consumed. -/
def decodeFrom (nodes : Mem Node) (root : NodeIdx) (cfg : BitVec 5) :
    NodeIdx → BitVec 8 → List Sym → Nat → List Byte → CallResult Sym
  | cur, depth, out, k, [] =>
    if depth ≠ 0 ∧ strictEnd cfg = true then .err .truncated cur depth k else .ok out
  | cur, depth, out, k, ch :: rest =>
    match walk nodes cfg cur depth ch with
    | .emitAtRoot y => decodeFrom nodes root cfg cur depth (out ++ [y]) (k + 1) rest
    | .emitAndRestart y => decodeFrom nodes root cfg root 0 (out ++ [y]) (k + 1) rest
    | .descend c => decodeFrom nodes root cfg c (depth + 1) out (k + 1) rest
    | .abort e d1 d2 => .err e d1 d2 k

/-- `DecodeCall(T, cfg, x)` (42_decode.md R98). -/
def decodeCall (nodes : Mem Node) (root : NodeIdx) (cfg : BitVec 5) (x : List Byte) : CallResult Sym :=
  decodeFrom nodes root cfg root 0 [] 0 x

/-- The loop of `EncodeCall`, with the bits so far and the number of symbols encoded. -/
def encodeFrom (code : Mem Code) : List Bool → Nat → List Byte → CallResult Bool
  | out, _, [] => .ok out
  | out, k, b :: rest =>
    match readCodeByte code b with
    | none => .err .unmapped b 0 k
    | some c => encodeFrom code (out ++ c) (k + 1) rest

/-- `EncodeCall(code, x)` (43_codegen_encode.md R108). -/
def encodeCall (code : Mem Code) (x : List Byte) : CallResult Bool := encodeFrom code [] 0 x

/-- The characters of a list of code bits, as ENC_OUT delivers them and DEC_CHR takes them (30_encoding.md R79). -/
def bitChars (bits : List Bool) : List Byte := bits.map bitChar

end Sys2Proof.Machine
end

