-- ==== Sys2Proof/Machine/HostReference.lean ====
section
/-! DEFINITION. The host reference software (45_host_reference.md R117 to R124) and the pseudo-commands (30_encoding.md
R81): functions on the host's side, no part of the machine's step. -/

namespace Sys2Proof.Machine

/-- FrequencyTable: each symbol with a count above 0, in ascending order; bytes of 128 or more are skipped
(45_host_reference.md R117). -/
def frequencyTable (x : List Byte) : List (Sym × Nat) :=
  (List.range Config.numSyms).filterMap fun k =>
    let n := x.countP (fun b => b.toNat = k)
    if n = 0 then none else some (BitVec.ofNat 7 k, n)

/-- A tree still to be merged: its frequency and its node id, which is its creation order (45_host_reference.md R118). -/
structure WorkItem where
  freq : Nat
  id : Nat
  deriving DecidableEq, Repr

/-- Least by (freq, id), the source's tie-break (45_host_reference.md R118; 90_conflicts.md C2). -/
def workLess (a b : WorkItem) : Bool := decide (a.freq < b.freq) || (decide (a.freq = b.freq) && decide (a.id < b.id))

/-- The least element of a non-empty working collection, and the others in their order. -/
def takeLeast : WorkItem → List WorkItem → WorkItem × List WorkItem
  | a, [] => (a, [])
  | a, b :: rest =>
    let (m, others) := takeLeast b rest
    if workLess m a then (m, a :: others) else (a, b :: rest)

/-- A tree image as the host lays it out: node id `k` in entry `k` (45_host_reference.md R119). -/
structure Image where
  entries : List Node
  root : NodeIdx
  deriving DecidableEq, Repr

/-- The greedy merge (45_host_reference.md R118); `fuel` is at least the number of merges left. -/
def mergeLoop : Nat → List WorkItem → List Node → Image
  | _, [], entries => { entries := entries, root := 0 }
  | _, [a], entries => { entries := entries, root := BitVec.ofNat 8 a.id }
  | 0, a :: _, entries => { entries := entries, root := BitVec.ofNat 8 a.id }
  | fuel + 1, x :: y :: work, entries =>
    let (a, rest) := takeLeast x (y :: work)
    match rest with
    | [] => { entries := entries, root := BitVec.ofNat 8 a.id }
    | z :: zs =>
      let (b, rest) := takeLeast z zs
      mergeLoop fuel (rest ++ [{ freq := a.freq + b.freq, id := entries.length }])
        (entries ++ [.internal (BitVec.ofNat 8 a.id) (BitVec.ofNat 8 b.id)])

/-- TreeBuilder, for a table with at least one entry (45_host_reference.md R118). -/
def buildTree (F : List (Sym × Nat)) : Image :=
  mergeLoop F.length (F.mapIdx fun k e => { freq := e.2, id := k }) (F.map fun e => .leaf e.1)

/-- The NODE_WR and SET_ROOT commands of an image (45_host_reference.md R119, R120). -/
def imageCommands (img : Image) : List Instr :=
  img.entries.mapIdx (fun k n => .nodeWr (BitVec.ofNat 8 k) n) ++ [.setRoot img.root]

/-- The commands of `LoadTree(x)`, up to its poll of BUSY: CLEAR alone for an empty table (45_host_reference.md R120,
R128). -/
def loadTree (x : List Byte) : List Instr :=
  match frequencyTable x with
  | [] => [.clear]
  | e :: F => .clear :: imageCommands (buildTree (e :: F)) ++ [.genTable]

/-- A list of commands as the host's writes to CMD, in order (20_memory.md R58). -/
def commandEvents (is : List Instr) : List Event := is.map fun i => .host (.write .cmd (encode i))

/-- `repeat RD STATUS until BUSY = 0`, after a GEN_TABLE, on the schedule that gives the ENGINE its turn once the host has
polled `waits` times: `waits` reads find BUSY = 1, the next finds BUSY = 0 and ends the loop (45_host_reference.md R120; log
16). -/
def pollEvents (waits : Nat) : List Event :=
  List.replicate waits (.host (.read .status)) ++ [.engine, .host (.read .status)]

/-- `LoadTree(x)` as events: CLEAR alone for an empty table; else its commands, the poll, and the read of ERR its last line
needs (45_host_reference.md R120, R128; log 16). -/
def loadTreeEvents (waits : Nat) (x : List Byte) : List Event :=
  match frequencyTable x with
  | [] => commandEvents (loadTree x)
  | _ :: _ => commandEvents (loadTree x) ++ pollEvents waits ++ [.host (.read .err)]

/-- The last line of LoadTree, on the STATUS its poll ended with and the ERR read after it: "require STATUS.TABLE_VALID = 1
and ERR.TREE_MALFORMED = 0" (45_host_reference.md R120). Both are bit 5 (10_state.md R32, R33). -/
def loadTreeRequire (statusWord errWord : Word) : Bool := statusWord.getLsbD 5 && !errWord.getLsbD 5

/-- What a run of LoadTree gives the host: the values of its reads decide (45_host_reference.md R120). -/
inductive LoadOutcome where
  /-- The FrequencyTable is empty: no tree and no table (45_host_reference.md R128). -/
  | noTree
  /-- The last line's condition holds: the tree and its table are loaded. -/
  | loaded
  /-- It does not. -/
  | failed
  /-- The reads are not those of a finished LoadTree: the poll has not ended, or ERR has not been read. -/
  | unfinished
  deriving DecidableEq, Repr

/-- The polling loop and the last line, on the values read since GEN_TABLE, oldest first: a STATUS with BUSY = 1 is polled
again, the first with BUSY = 0 ends the loop, and the next value is that of ERR (45_host_reference.md R120). -/
def loadTreePolled : List Word → LoadOutcome
  | [] => .unfinished
  | [_] => .unfinished
  | v :: w :: rest =>
    if v.getLsbD 4 = true then loadTreePolled (w :: rest)
    else if loadTreeRequire v w = true then .loaded
    else .failed

/-- The outcome of `LoadTree(x)` from the values its reads returned (45_host_reference.md R120, R128). -/
def loadTreeOutcome (x : List Byte) (values : List Word) : LoadOutcome :=
  match frequencyTable x with
  | [] => .noTree
  | _ :: _ => loadTreePolled values

/-- CFG_REFERENCE (30_encoding.md R81). -/
def cfgReference : Instr := .setCfg 0#5

/-- CFG_STRICT (30_encoding.md R81). -/
def cfgStrict : Instr := .setCfg 0b00011#5

/-- DEC_STR (30_encoding.md R81). -/
def decStr (x : List Byte) : List Instr := x.map .decChr

/-- ENC_STR (30_encoding.md R81). -/
def encStr (x : List Byte) : List Instr := x.map .encSym

/-- DECODE (30_encoding.md R81; 45_host_reference.md R123). -/
def decodeCommands (x : List Byte) : List Instr := .decStart :: decStr x ++ [.decEnd]

/-- ENCODE (30_encoding.md R81; 45_host_reference.md R122). -/
def encodeCommands (x : List Byte) : List Instr := .encStart :: encStr x ++ [.encEnd]

/-- DRAIN_SYM, with `n` reads of SYM_OUT (30_encoding.md R81). -/
def drainSym (n : Nat) : List Event := List.replicate n (.host (.read .symOut))

/-- DRAIN_ENC, with `n` reads of ENC_OUT (30_encoding.md R81). -/
def drainEnc (n : Nat) : List Event := List.replicate n (.host (.read .encOut))

/-- The report of an encode call; a call of no symbols has no ratio (45_host_reference.md R124). -/
structure Report where
  originalBits : Nat
  encodedBits : Nat
  ratio : Option Rat
  deriving DecidableEq, Repr

/-- The figures of a report from ENC_NSYM and ENC_NBITS, computed exactly (45_host_reference.md R124; 10_state.md R42). -/
def reportFigures (nsym nbits : Word) : Report :=
  { originalBits := 8 * nsym.toNat
    encodedBits := nbits.toNat
    ratio :=
      if nsym.toNat = 0 then none
      else some (((8 * nsym.toNat : Nat) - (nbits.toNat : Rat)) / (8 * nsym.toNat : Nat) * 100) }

/-- `Report(symbols, CodeTable)` from the result of the encode call of `symbols` and the two counters read after it: "An
encode call that failed with UNMAPPED has no report" (45_host_reference.md R124). -/
def report (call : CallResult Bool) (nsym nbits : Word) : Option Report :=
  match call with
  | .ok _ => some (reportFigures nsym nbits)
  | .err _ _ _ _ => none

end Sys2Proof.Machine
end

