-- ==== Sys2Proof/Safety.lean ====
section
/-! DEFINITION. The notions the statements about HUFDEC use: the next step's event, clean entry and the end of a run
(70_reset_and_hazards.md R163), the well-formed tree image (41_tree.md R90), void calls (60_exceptions.md R141), and the
invariant every step keeps. -/

namespace Sys2Proof.Machine

/-- The word the next step writes to CMD, if the next event is such a write. -/
def nextCommand (s : State) : Option Word :=
  match s.agenda with
  | .host (.write .cmd w) :: _ => some w
  | _ => none

/-- The next step is a reset. -/
def nextIsReset (s : State) : Prop := s.agenda.head? = some .reset

/-- The next step is the ENGINE step: its turn, or nothing else to come, while a GEN_TABLE is pending (20_memory.md R65). -/
def nextIsEngine (s : State) : Prop := s.busy = true ∧ (s.agenda = [] ∨ s.agenda.head? = some .engine)

/-- The next step issues the command `i`. -/
def nextIssues (s : State) (i : Instr) : Prop := ∃ w, nextCommand s = some w ∧ decode w = .ok i

/-- The command passes REJ_BUSY and REJ_STATE (40_control.md R82). -/
def passesChecks (s : State) (i : Instr) : Prop := (s.busy = false ∨ busyExempt i = true) ∧ precondition s i = true

/-- ERR_INFO after an error with these fields: what was latched first stays (10_state.md R34). -/
def firstError (s : State) (opc : BitVec 4) (d2 d1 : Byte) (c : BitVec 4) : ErrInfo :=
  if s.errInfo.v = true then s.errInfo else { v := true, opc := opc, detail2 := d2, detail := d1, code := c }

/-- A flag as a number. -/
def bit (p : Prop) [Decidable p] : Nat := if p then 1 else 0

/-- The value read from each register that does not pop, as 44_host_reads.md R112 writes it: a sum. -/
def registerNumber (P : Params) (s : State) : Reg → Nat
  | .cmd => 0
  | .id => 0x48554631
  | .caps => P.symFifoDepth + 2 ^ 8 * P.encFifoDepth + 2 ^ 16 * 127 + 2 ^ 24 * 255
  | .status =>
    (match s.decState with | .idle => 0 | .walk => 1 | .aborted => 2)
      + 4 * (match s.encState with | .idle => 0 | .active => 1 | .aborted => 2)
      + 16 * bit (s.busy = true) + 32 * bit (s.tableValid = true) + 64 * bit (s.depth = 0) + 128 * bit (s.err ≠ 0)
      + 256 * bit (s.symFifo.length < P.symFifoDepth) + 512 * bit (0 < s.symFifo.length)
      + 1024 * bit (0 < s.encFifo.length) + 2048 * bit (irq s = true)
      + 2 ^ 16 * s.symFifo.length + 2 ^ 24 * s.encFifo.length
  | .err => s.err.toNat
  | .errInfo =>
    2 ^ 31 * bit (s.errInfo.v = true) + 2 ^ 24 * s.errInfo.opc.toNat + 2 ^ 16 * s.errInfo.detail2.toNat
      + 2 ^ 8 * s.errInfo.detail.toNat + s.errInfo.code.toNat
  | .cfg => s.cfg.toNat
  | .root => s.root.toNat
  | .cur => s.cur.toNat + 2 ^ 8 * s.depth.toNat
  | .rdata => s.rdata.toNat
  | .symOut => 0
  | .encOut => 0
  | .decNchr => s.decNchr.toNat
  | .decNsym => s.decNsym.toNat
  | .encNsym => s.encNsym.toNat
  | .encNbits => s.encNbits.toNat

/-- The clean-entry premise (70_reset_and_hazards.md R163). -/
def clean (s : State) : Prop :=
  s.err = 0 ∧ s.errInfo = State.reset.errInfo ∧ s.busy = false ∧ s.decState = .idle ∧ s.encState = .idle
    ∧ s.symFifo = [] ∧ s.encFifo = []

/-- The run has ended: no transaction to come and no ENGINE step pending (70_reset_and_hazards.md R163). DESIGN CHOICE (log
21): R163 names transactions only, and the model's run also takes the resets and ENGINE turns that follow the host's last
transaction on the agenda before it ends. -/
def runEnded (s : State) : Prop := s.agenda = [] ∧ s.busy = false

/-- The child of an entry: the left one for `false`, the right one for `true`. -/
def child (nodes : Mem Node) (i : NodeIdx) (right : Bool) : Option NodeIdx :=
  match readNode nodes i with
  | some (.internal l r) => some (if right then r else l)
  | _ => none

/-- The entries reachable from the root through child links (41_tree.md R90). -/
inductive Reachable (nodes : Mem Node) (root : NodeIdx) : NodeIdx → Prop where
  | root : Reachable nodes root root
  | step {i j : NodeIdx} (right : Bool) : Reachable nodes root i → child nodes i right = some j → Reachable nodes root j

/-- A path of bits leads from one entry to another: `false` to the left child, `true` to the right. -/
inductive PathTo (nodes : Mem Node) : NodeIdx → Code → NodeIdx → Prop where
  | here (i : NodeIdx) : PathTo nodes i [] i
  | down {i j k : NodeIdx} {p : Code} (right : Bool) :
      child nodes i right = some j → PathTo nodes j p k → PathTo nodes i (right :: p) k

/-- A well-formed tree image (41_tree.md R90). -/
structure WellFormedImage (nodes : Mem Node) (root : NodeIdx) : Prop where
  /-- Conditions 1 and 2: every reachable entry, the root among them, holds a node. -/
  present : ∀ i, Reachable nodes root i → readNode nodes i ≠ none
  /-- Condition 3: one child field of one reachable node names each reachable entry other than the root. -/
  oneParent : ∀ i, Reachable nodes root i → i ≠ root →
    ∃! e : NodeIdx × Bool, Reachable nodes root e.1 ∧ child nodes e.1 e.2 = some i
  /-- Condition 3: no reachable node names the root. -/
  rootUnnamed : ∀ i right, Reachable nodes root i → child nodes i right ≠ some root
  /-- Condition 4: no two reachable leaves hold the same symbol. -/
  distinctSymbols : ∀ i j y, Reachable nodes root i → Reachable nodes root j →
    readNode nodes i = some (.leaf y) → readNode nodes j = some (.leaf y) → i = j

/-- The step from `s` to `t` makes the open decode call void (60_exceptions.md R141): it aborts, its DEC_END raises
TRUNCATED, or CLEAR or reset ends it. -/
def voidsDecodeCall (s t : State) : Prop :=
  s.decState ≠ .idle ∧
    ((s.decState = .walk ∧ t.decState = .aborted)
      ∨ (nextIssues s .decEnd ∧ passesChecks s .decEnd ∧ s.decState = .walk ∧ s.depth ≠ 0 ∧ strictEnd s.cfg = true)
      ∨ nextIssues s .clear ∨ nextIsReset s)

/-- The step from `s` to `t` makes the open encode call void (60_exceptions.md R141). -/
def voidsEncodeCall (s t : State) : Prop :=
  s.encState ≠ .idle ∧
    ((s.encState = .active ∧ t.encState = .aborted) ∨ nextIssues s .clear ∨ nextIsReset s)

/-- The two memories are in their canonical form, with 256 and 128 entries (10_state.md R48, R49). -/
structure MemoriesCanonical (s : State) : Prop where
  nodes : s.nodes.wf Config.nodeCount = true
  code : s.code.wf Config.numSyms = true

/-- What the code table is (10_state.md R49; 20_memory.md R69): nothing while it is not valid, and the result of
generating from the present tree image while it is. -/
structure TableCurrent (s : State) : Prop where
  invalidEmpty : s.tableValid = false → s.code = []
  validCurrent : s.tableValid = true → genTable s.nodes s.root = .ok s.code
  busyInvalid : s.busy = true → s.tableValid = false
  busyEncIdle : s.busy = true → s.encState = .idle

/-- The walker's position (10_state.md R43, R44). -/
structure WalkerInRange (s : State) : Prop where
  depthBound : s.depth.toNat ≤ 126
  idleAtTop : s.decState = .idle → s.depth = 0
  topIsRoot : s.decState = .walk → s.depth = 0 → s.cur = s.root
  belowIsInternal : s.decState = .walk → s.depth ≠ 0 → ∃ l r, readNode s.nodes s.cur = some (.internal l r)

/-- The FIFOs hold no more than their depths (10_state.md R50). -/
structure FifosFit (s : State) : Prop where
  sym : s.symFifo.length ≤ Config.params.symFifoDepth
  enc : s.encFifo.length ≤ Config.params.encFifoDepth

/-- The error record (10_state.md R33, R34): the latch holds something exactly when some flag is set, and then the code of
an error whose flag is set; empty, all its fields are 0. -/
structure ErrorRecordSound (s : State) : Prop where
  latchedIff : s.errInfo.v = true ↔ s.err ≠ 0
  empty : s.errInfo.v = false → s.errInfo = State.reset.errInfo
  codeFlagged : s.errInfo.v = true → ∃ e, s.errInfo.code = errCode e ∧ s.err &&& errFlag e ≠ 0

/-- The invariant of the machine. -/
structure Inv (s : State) : Prop where
  memories : MemoriesCanonical s
  table : TableCurrent s
  walker : WalkerInRange s
  fifos : FifosFit s
  errors : ErrorRecordSound s

end Sys2Proof.Machine
end

