-- ==== Sys2Proof/Certificates/Slice0/Obligations.lean ====
section
/-! DEFINITION. The statements for the provers, in the order of the spec's files. The statement of an equation
`exec i s = .next t` with `t` an update of `s` is the instruction's result, its completion and its frame at once: every
component not named in the update is unchanged. -/

open Sys2Proof Sys2Proof.Machine

/-! ### Reset and the state (10_state.md, 70_reset_and_hazards.md) -/

/-- 10_state.md section 6 and 70_reset_and_hazards.md section 1: a reset, at any state and with anything still to come,
leaves every component of the state at its reset value. Derived: STATUS then reads 0x0000_0140 and `irq` is 0, which the spec
marks as its own inference ("[derived: from rules R32 and R52]"); CFG reads 0x0000_0003 and ERR_INFO 0. The model's choice:
that a reset keeps what is left of `agenda` and keeps `reads` (log 11), and that the machine starts with both empty (logs 1
and 2). -/
def Obligations.ResetRestoresEveryComponent : Prop :=
  ∀ (s : State) (rest : List Event), s.agenda = .reset :: rest → ∃ t, step s = .next t
    ∧ t = { cfg := 0b00011#5, err := 0, errInfo := { v := false, opc := 0, detail2 := 0, detail := 0, code := 0 },
            nodes := [], root := 0, code := [], tableValid := false, busy := false, decState := .idle, cur := 0,
            depth := 0, symFifo := [], decNchr := 0, decNsym := 0, encState := .idle, encFifo := [], encNsym := 0,
            encNbits := 0, rdata := 0, agenda := rest, reads := s.reads }
    ∧ (∀ i, readNode t.nodes i = none) ∧ (∀ y, readCode t.code y = none)
    ∧ readValue Config.params .status t = 0x00000140#32 ∧ readValue Config.params .cfg t = 0x00000003#32
    ∧ readValue Config.params .errInfo t = 0x00000000#32 ∧ irq t = false
    ∧ State.reset = { t with agenda := [], reads := [] }

/-- R52: the interrupt output is the level of R52, at STATUS bit 11, in every state. -/
def Obligations.InterruptIsALevelOfTheState : Prop :=
  ∀ s : State,
    (irq s = true ↔ (s.cfg.getLsbD 2 = true ∧ s.err ≠ 0) ∨ (s.cfg.getLsbD 3 = true ∧ s.symFifo ≠ [])
      ∨ (s.cfg.getLsbD 4 = true ∧ s.encFifo ≠ []))
    ∧ (status Config.params s).getLsbD 11 = irq s

/-- R45: the decoder's state after any step, as its table of transitions gives it: CLEAR and reset end in IDLE, an accepted
DEC_START in WALK, an accepted DEC_END in IDLE, a DEC_CHR whose walk raises an aborting error in ABORTED, and "No other
event changes `dec_state`". In ABORTED a DEC_CHR is ignored. -/
def Obligations.DecoderStateTransitions : Prop :=
  ∀ s t : State, step s = .next t →
    (nextIsReset s ∨ nextIssues s .clear → t.decState = .idle)
    ∧ (nextIssues s .decStart → s.busy = false → s.decState = .idle ∨ s.decState = .aborted → t.decState = .walk)
    ∧ (∀ ch, nextIssues s (.decChr ch) → s.busy = false → s.decState = .walk →
        s.symFifo.length ≠ Config.params.symFifoDepth →
        (∃ e d1 d2, walk s.nodes s.cfg s.cur s.depth ch = .abort e d1 d2) → t.decState = .aborted)
    ∧ (∀ ch, nextIssues s (.decChr ch) → s.busy = false → s.decState = .aborted →
        t = { s with agenda := s.agenda.tail })
    ∧ (nextIssues s .decEnd → s.busy = false → s.decState = .walk ∨ s.decState = .aborted → t.decState = .idle)
    ∧ (t.decState ≠ s.decState →
        nextIsReset s ∨ nextIssues s .clear
        ∨ (nextIssues s .decStart ∧ s.busy = false ∧ (s.decState = .idle ∨ s.decState = .aborted))
        ∨ (∃ ch, nextIssues s (.decChr ch) ∧ s.busy = false ∧ s.decState = .walk
            ∧ s.symFifo.length ≠ Config.params.symFifoDepth
            ∧ ∃ e d1 d2, walk s.nodes s.cfg s.cur s.depth ch = .abort e d1 d2
                ∧ (e = .badChar ∨ e = .badPath ∨ e = .treeMalformed))
        ∨ (nextIssues s .decEnd ∧ s.busy = false ∧ (s.decState = .walk ∨ s.decState = .aborted)))

/-- R46: the encoder's state after any step, every transition of the table and no other. In ABORTED an ENC_SYM is
ignored. -/
def Obligations.EncoderStateTransitions : Prop :=
  ∀ s t : State, step s = .next t →
    (nextIsReset s ∨ nextIssues s .clear → t.encState = .idle)
    ∧ (nextIssues s .encStart → s.busy = false → s.encState = .idle ∨ s.encState = .aborted → t.encState = .active)
    ∧ (∀ b, nextIssues s (.encSym b) → s.busy = false → s.encState = .active → readCodeByte s.code b = none →
        t.encState = .aborted)
    ∧ (∀ b, nextIssues s (.encSym b) → s.busy = false → s.encState = .aborted →
        t = { s with agenda := s.agenda.tail })
    ∧ (nextIssues s .encEnd → s.busy = false → s.encState = .active ∨ s.encState = .aborted → t.encState = .idle)
    ∧ (t.encState ≠ s.encState →
        nextIsReset s ∨ nextIssues s .clear
        ∨ (nextIssues s .encStart ∧ s.busy = false ∧ (s.encState = .idle ∨ s.encState = .aborted))
        ∨ (∃ b, nextIssues s (.encSym b) ∧ s.busy = false ∧ s.encState = .active ∧ readCodeByte s.code b = none)
        ∨ (nextIssues s .encEnd ∧ s.busy = false ∧ (s.encState = .active ∨ s.encState = .aborted)))

/-- R33, and the latch of R34: an ERR flag stays set, and a latched ERR_INFO stays, through every step but CLR_ERR and
reset; CLEAR does not clear them. -/
def Obligations.ErrorRecordStaysUntilCleared : Prop :=
  ∀ s t : State, step s = .next t → ¬ nextIssues s .clrErr → ¬ nextIsReset s →
    (∀ k, s.err.getLsbD k = true → t.err.getLsbD k = true) ∧ (s.errInfo.v = true → t.errInfo = s.errInfo)

/-- R35, R36, R38 on who writes CFG, ROOT and RDATA: no other step changes them. -/
def Obligations.RegistersWrittenOnlyByTheirCommands : Prop :=
  ∀ s t : State, step s = .next t → ¬ nextIsReset s →
    (t.cfg ≠ s.cfg → ∃ flags, nextIssues s (.setCfg flags) ∧ t.cfg = flags)
    ∧ (¬ nextIssues s .clear →
        (t.root ≠ s.root → ∃ idx, nextIssues s (.setRoot idx) ∧ t.root = idx)
        ∧ (t.rdata ≠ s.rdata →
            (∃ idx, nextIssues s (.nodeRd idx)) ∨ (∃ y p, nextIssues s (.codeRd y p))))

/-- R50's "No element is ever lost in any other way": a step appends to a FIFO, keeps it, removes its head for a read of its
own register, or empties it for one of the events R50 names. -/
def Obligations.FifosLoseNothing : Prop :=
  ∀ s t : State, step s = .next t → ¬ nextIsReset s → ¬ nextIssues s .clear →
    ((∃ new, t.symFifo = s.symFifo ++ new)
      ∨ (s.agenda.head? = some (.host (.read .symOut)) ∧ t.symFifo = s.symFifo.tail)
      ∨ (t.symFifo = [] ∧ (nextIssues s .decStart ∨ (s.decState = .walk ∧ t.decState = .aborted)
          ∨ (nextIssues s .decEnd ∧ s.decState = .walk ∧ t.err.getLsbD 8 = true))))
    ∧ ((∃ new, t.encFifo = s.encFifo ++ new)
      ∨ (s.agenda.head? = some (.host (.read .encOut)) ∧ t.encFifo = s.encFifo.tail)
      ∨ (t.encFifo = [] ∧ (nextIssues s .encStart ∨ (s.encState = .active ∧ t.encState = .aborted))))

/-! ### Encoding (30_encoding.md) -/

/-- One word of each format, written out bit by bit from R72: each decodes to the command it stands for. -/
def Obligations.SampleWordsDecode : Prop :=
  decode 0b0111_0000000000000000000000000000#32 = .ok .genTable
  ∧ decode 0b0011_00000000000000000000000_10001#32 = .ok (.setCfg 0b10001#5)
  ∧ decode 0b0100_11111111_000_0_00000011_00000001#32 = .ok (.nodeWr 255 (.internal 1 3))
  ∧ decode 0b0100_00000001_000_1_000000000_1100010#32 = .ok (.nodeWr 1 (.leaf 0x62))
  ∧ decode 0b0101_00000000000000000000_00000010#32 = .ok (.setRoot 2)
  ∧ decode 0b1000_00000000000000000_100_0_1111111#32 = .ok (.codeRd 0x7F 4)
  ∧ decode 0b1010_00000000000000000000_00110001#32 = .ok (.decChr 0x31)
  ∧ decode 0b1000_00000000000000000_101_0_1100001#32 = .error .badOperand
  ∧ decode 0b1111_0000000000000001001000110100#32 = .error .badOpcode

/-- "Encoding a command and then decoding it gives back the same command" (30_encoding.md R76): every operand, at every
value the encoding admits. -/
def Obligations.DecodeOfEncodeIsTheCommand : Prop := ∀ i : Instr, i.wellFormed = true → decode (encode i) = .ok i

/-- "every accepted word is the encoding of the command it decodes to" (30_encoding.md R76). -/
def Obligations.AcceptedWordIsAnEncoding : Prop :=
  ∀ (w : Word) (i : Instr), decode w = .ok i → encode i = w ∧ i.wellFormed = true

/-- R74: a word is accepted as the command of a row exactly when it matches the row under its mask and the row's extra
condition holds; opcode 0xF, and it alone, raises BAD_OPCODE. -/
def Obligations.AcceptedWordsAreTheOpcodeMap : Prop :=
  ∀ w : Word,
    (∀ row ∈ opcodeMap, spells w row = true ↔ ∃ i, decode w = .ok i ∧ opcode i = row.opc)
    ∧ (∀ i, decode w = .ok i → ∃ row ∈ opcodeMap, row.opc = opcode i)
    ∧ (decode w = .error .badOpcode ↔ w &&& 0xF0000000#32 = 0xF0000000#32)

/-- R75: a word that spells no command of R74 changes nothing but `err` and `err_info`: BAD_OPCODE (code 1) for OPC = 0xF,
else BAD_OPERAND (code 2), with the word's opcode and its two low bytes recorded. -/
def Obligations.IllegalWordOnlyRaises : Prop :=
  ∀ (w : Word) (s : State), (∀ row ∈ opcodeMap, spells w row = false) →
    (w.extractLsb' 28 4 = 0xF#4 →
      execute w s = .next { s with
        err := s.err ||| 0b00000000001#11
        errInfo := firstError s 0xF#4 (w.extractLsb' 8 8) (w.extractLsb' 0 8) 1#4 })
    ∧ (w.extractLsb' 28 4 ≠ 0xF#4 →
      execute w s = .next { s with
        err := s.err ||| 0b00000000010#11
        errInfo := firstError s (w.extractLsb' 28 4) (w.extractLsb' 8 8) (w.extractLsb' 0 8) 2#4 })

/-- R77: NODE_RD returns the node word of an entry in RDATA; the node word of each kind of entry, and its bits [16:0] those
of the NODE_WR that wrote it. -/
def Obligations.NodeWordFormat : Prop :=
  (∀ (idx : NodeIdx) (s : State), s.busy = false →
    exec (.nodeRd idx) s = .next { s with rdata := nodeWord (readNode s.nodes idx) }) ∧
  nodeWord none = 0x00000000#32
  ∧ (∀ y : Sym, (nodeWord (some (.leaf y))).toNat = 0x80010000 + y.toNat)
  ∧ (∀ l r : NodeIdx, (nodeWord (some (.internal l r))).toNat = 0x80000000 + 256 * r.toNat + l.toNat)
  ∧ ∀ (idx : NodeIdx) (n : Node),
      (nodeWord (some n)).extractLsb' 0 17 = (encode (.nodeWr idx n)).extractLsb' 0 17

/-- R78: CODE_RD returns the read-back word of an entry and a part in RDATA; it is 0 for no code, V and the length in part 0,
and in part p from 1 to 4 its bit i is element 32(p - 1) + i of the code, or 0 past its end. -/
def Obligations.CodeWordFormat : Prop :=
  (∀ (y : Sym) (p : BitVec 3) (s : State), p.toNat ≤ 4 → s.busy = false →
    exec (.codeRd y p) s = .next { s with rdata := codeWord (readCode s.code y) p }) ∧
  (∀ p : BitVec 3, codeWord none p = 0x00000000#32)
  ∧ (∀ c : Code, c.length ≤ 127 → (codeWord (some c) 0).toNat = 2 ^ 31 + c.length)
  ∧ ∀ (c : Code) (p : BitVec 3) (i : Nat), 1 ≤ p.toNat → p.toNat ≤ 4 → i < 32 →
      (codeWord (some c) p).getLsbD i = c.getD (32 * (p.toNat - 1) + i) false

/-! ### The pipeline and the error record (40_control.md R82, 60_exceptions.md) -/

/-- When the next write to CMD holds a word that decodes, the step is the meaning of that command, on the state with the
write taken off the agenda. -/
def Obligations.StepRunsTheDecodedCommand : Prop :=
  ∀ (s : State) (w : Word) (rest : List Event) (i : Instr),
    s.agenda = .host (.write .cmd w) :: rest → decode w = .ok i → step s = exec i { s with agenda := rest }

/-- While a GEN_TABLE is pending, every command but NOP, CLEAR and CLR_ERR is rejected: only REJ_BUSY (code 3) is recorded
(40_control.md R82; 10_state.md R51). -/
def Obligations.BusyRejectsAllButThree : Prop :=
  ∀ (i : Instr) (s : State), s.busy = true → i ≠ .nop → i ≠ .clear → i ≠ .clrErr →
    exec i s = .next { s with
      err := s.err ||| 0b00000000100#11, errInfo := firstError s (opcode i) 0 0 3#4 }

/-- The precondition table of 60_exceptions.md R133: a command whose precondition is false records REJ_STATE (code 4) with
STATUS[7:0] as it was before, and does nothing else. -/
def Obligations.WrongStateRejectsByTheTable : Prop :=
  ∀ (i : Instr) (s : State), s.busy = false →
    (((∃ idx n, i = .nodeWr idx n) ∨ (∃ idx, i = .setRoot idx)) ∧ ¬ (s.decState = .idle ∧ s.encState = .idle))
      ∨ (i = .genTable ∧ s.encState ≠ .idle)
      ∨ (i = .decStart ∧ s.decState = .walk)
      ∨ (((∃ ch, i = .decChr ch) ∨ i = .decEnd) ∧ s.decState = .idle)
      ∨ (i = .encStart ∧ s.encState = .active)
      ∨ (((∃ b, i = .encSym b) ∨ i = .encEnd) ∧ s.encState = .idle) →
    exec i s = .next { s with
      err := s.err ||| 0b00000001000#11
      errInfo := firstError s (opcode i) 0 ((status Config.params s).extractLsb' 0 8) 4#4 }

/-- R132: `raise` sets the error's flag and no other, latches the details if nothing is latched, and changes nothing else;
the opcode it latches in a step is bits [31:28] of the command word, 0x7 for the ENGINE step, 0x0 for a write elsewhere. -/
def Obligations.RaiseLatchesTheFirstError : Prop :=
  (∀ (e : Err) (opc : BitVec 4) (d1 d2 : Byte) (s : State),
      (∀ k < 11, (raise e opc d1 d2 s).err.getLsbD k
        = (s.err.getLsbD k || decide (k + 1 = (errCode e).toNat)))
      ∧ raise e opc d1 d2 s = { s with
          err := (raise e opc d1 d2 s).err, errInfo := firstError s opc d2 d1 (errCode e) })
  ∧ ∀ s t : State, step s = .next t → s.errInfo.v = false → t.errInfo.v = true →
      (∀ w, nextCommand s = some w → t.errInfo.opc = w.extractLsb' 28 4)
      ∧ (nextIsEngine s → t.errInfo.opc = 0x7#4)
      ∧ (∀ r d rest, s.agenda = .host (.write r d) :: rest → r ≠ .cmd → t.errInfo.opc = 0x0#4)

/-! ### The control commands (40_control.md) -/

/-- R55: after CLEAR every component holds its reset value but `cfg`, `err` and `err_info`, in any state. -/
def Obligations.ClearKeepsConfigurationAndErrors : Prop :=
  ∀ s : State, exec .clear s = .next { State.reset with
    cfg := s.cfg, err := s.err, errInfo := s.errInfo, agenda := s.agenda, reads := s.reads }

/-- NOP leaves the state unchanged, and CLR_ERR empties ERR and ERR_INFO and changes nothing else, each in any state, BUSY
or not (40_control.md section 2). -/
def Obligations.NopAndClrErrComplete : Prop :=
  ∀ s : State, exec .nop s = .next s
    ∧ exec .clrErr s = .next { s with
        err := 0, errInfo := { v := false, opc := 0, detail2 := 0, detail := 0, code := 0 } }

/-- SET_CFG writes the five flags and nothing else, with a call open or not (40_control.md section 2). -/
def Obligations.SetCfgWritesTheFlags : Prop :=
  ∀ (flags : BitVec 5) (s : State), s.busy = false → exec (.setCfg flags) s = .next { s with cfg := flags }

/-- 70_reset_and_hazards.md section 1: CLEAR differs from a reset in `cfg`, `err` and `err_info` alone; and CLEAR, SET_CFG 3,
CLR_ERR from any state leave what a reset leaves, which the spec marks as its own inference ("[derived: from 10_state.md
rules R54 and R55]"). That `agenda` and `reads` are the same on both sides rests on the model's choice that a reset keeps
them (log 11). -/
def Obligations.ClearThenStrictThenClrErrIsReset : Prop :=
  ∀ (s : State) (rest : List Event),
    (∃ c r, exec .clear s = .next c ∧ step { s with agenda := .reset :: s.agenda } = .next r
      ∧ c = { r with cfg := s.cfg, err := s.err, errInfo := s.errInfo })
    ∧ ∃ r, step { s with agenda := .reset :: rest } = .next r
      ∧ Host.Core.run core 3 { s with
          agenda := commandEvents [.clear, .setCfg 0b00011#5, .clrErr] ++ rest } = .next r

/-! ### The tree image (41_tree.md) -/

/-- NODE_WR between calls: the entry holds the node, every other entry and component is unchanged, the table is cleared
(41_tree.md section 2). The memory is in its canonical form in every state a run reaches. -/
def Obligations.NodeWrWritesOneEntry : Prop :=
  ∀ (idx : NodeIdx) (n : Node) (s : State), MemoriesCanonical s → s.busy = false → s.decState = .idle →
    s.encState = .idle → ∃ t, exec (.nodeWr idx n) s = .next t
      ∧ t = { s with nodes := t.nodes, tableValid := false, code := [] }
      ∧ readNode t.nodes idx = some n ∧ ∀ j, j ≠ idx → readNode t.nodes j = readNode s.nodes j

/-- SET_ROOT between calls: `root` written, the table cleared, `cur` and the rest unchanged (41_tree.md section 2). -/
def Obligations.SetRootNamesTheRoot : Prop :=
  ∀ (idx : NodeIdx) (s : State), s.busy = false → s.decState = .idle → s.encState = .idle →
    exec (.setRoot idx) s = .next { s with root := idx, tableValid := false, code := [] }

/-- NODE_RD, in any call state: RDATA the node word of the entry, nothing else changed (41_tree.md section 2). -/
def Obligations.NodeRdReadsTheEntry : Prop :=
  ∀ (idx : NodeIdx) (s : State), s.busy = false → ∃ v, exec (.nodeRd idx) s = .next { s with rdata := v }
    ∧ (readNode s.nodes idx = none → v = 0x00000000#32)
    ∧ (∀ y, readNode s.nodes idx = some (.leaf y) → v.toNat = 0x80010000 + y.toNat)
    ∧ (∀ l r, readNode s.nodes idx = some (.internal l r) → v.toNat = 0x80000000 + 256 * r.toNat + l.toNat)

/-- The tree image cannot change while a call is open or a GEN_TABLE is pending, but by CLEAR and reset (41_tree.md section
1; 20_memory.md section 6). -/
def Obligations.TreeImageFixedDuringCalls : Prop :=
  ∀ s t : State, step s = .next t → s.decState ≠ .idle ∨ s.encState ≠ .idle ∨ s.busy = true →
    ¬ nextIssues s .clear → ¬ nextIsReset s → t.nodes = s.nodes ∧ t.root = s.root

/-! ### The decoder (42_decode.md) -/

/-- R93: the direction of a character, and the bit that documents the choice readable at CFG bit 0. -/
def Obligations.DirectionOfACharacter : Prop :=
  (∀ cfg, dir 0x30#8 cfg = some .left) ∧ (∀ cfg, dir 0x31#8 cfg = some .right)
  ∧ (∀ ch cfg, ch ≠ 0x30#8 → ch ≠ 0x31#8 → cfg.getLsbD 0 = false → dir ch cfg = some .right)
  ∧ (∀ ch cfg, ch ≠ 0x30#8 → ch ≠ 0x31#8 → cfg.getLsbD 0 = true → dir ch cfg = none)
  ∧ ∀ s : State, (readValue Config.params .cfg s).getLsbD 0 = s.cfg.getLsbD 0

/-- DEC_START opens a call from IDLE and from ABORTED (42_decode.md section 2). -/
def Obligations.DecStartOpensACall : Prop :=
  ∀ s : State, s.busy = false → s.decState ≠ .walk →
    exec .decStart s = .next { s with
      decState := .walk, cur := s.root, depth := 0, symFifo := [], decNchr := 0, decNsym := 0 }

/-- DEC_CHR below an internal node whose child in the character's direction is a leaf: the symbol is pushed, both counters
advance, the walker restarts at the root (42_decode.md section 2). -/
def Obligations.DecChrEmitsAtALeaf : Prop :=
  ∀ (ch : Byte) (s : State) (d : Dir) (l r : NodeIdx) (y : Sym), s.busy = false → s.decState = .walk →
    s.symFifo.length ≠ Config.params.symFifoDepth → dir ch s.cfg = some d →
    readNode s.nodes s.cur = some (.internal l r) →
    readNode s.nodes (if d = .left then l else r) = some (.leaf y) →
    exec (.decChr ch) s = .next { s with
      symFifo := s.symFifo ++ [y], decNsym := s.decNsym + 1, decNchr := s.decNchr + 1, cur := s.root, depth := 0 }

/-- DEC_CHR below an internal node whose child is an internal node less than 127 deep: the walker descends, one character
is counted (42_decode.md section 2). -/
def Obligations.DecChrDescends : Prop :=
  ∀ (ch : Byte) (s : State) (d : Dir) (l r l' r' : NodeIdx), s.busy = false → s.decState = .walk →
    s.symFifo.length ≠ Config.params.symFifoDepth → dir ch s.cfg = some d →
    readNode s.nodes s.cur = some (.internal l r) →
    readNode s.nodes (if d = .left then l else r) = some (.internal l' r') → s.depth.toNat < 126 →
    exec (.decChr ch) s = .next { s with
      cur := if d = .left then l else r, depth := s.depth + 1, decNchr := s.decNchr + 1 }

/-- DEC_CHR at a leaf root, the degenerate tree: a character `0` emits its symbol, the position unchanged (42_decode.md
section 2). -/
def Obligations.DecChrEmitsAtALeafRoot : Prop :=
  ∀ (ch : Byte) (s : State) (y : Sym), s.busy = false → s.decState = .walk →
    s.symFifo.length ≠ Config.params.symFifoDepth → dir ch s.cfg = some .left →
    readNode s.nodes s.cur = some (.leaf y) →
    exec (.decChr ch) s = .next { s with
      symFifo := s.symFifo ++ [y], decNsym := s.decNsym + 1, decNchr := s.decNchr + 1 }

/-- Every aborting error of DEC_CHR, with its code and details: the call is ABORTED, its FIFO flushed, the position and the
counters kept (42_decode.md section 2; 60_exceptions.md section 1). -/
def Obligations.DecChrAborts : Prop :=
  ∀ (ch : Byte) (s : State) (c : BitVec 4) (d1 d2 : Byte), s.busy = false → s.decState = .walk →
    s.symFifo.length ≠ Config.params.symFifoDepth →
    (dir ch s.cfg = none ∧ c = 7#4 ∧ d1 = ch ∧ d2 = s.depth)
      ∨ (dir ch s.cfg ≠ none ∧ readNode s.nodes s.cur = none ∧ c = 6#4 ∧ d1 = s.cur ∧ d2 = 1)
      ∨ (dir ch s.cfg = some .right ∧ (∃ y, readNode s.nodes s.cur = some (.leaf y)) ∧ c = 8#4 ∧ d1 = ch ∧ d2 = 0)
      ∨ (∃ d l r, dir ch s.cfg = some d ∧ readNode s.nodes s.cur = some (.internal l r)
          ∧ d1 = (if d = .left then l else r) ∧ c = 6#4
          ∧ ((readNode s.nodes d1 = none ∧ d2 = 1)
            ∨ ((∃ l' r', readNode s.nodes d1 = some (.internal l' r')) ∧ 126 ≤ s.depth.toNat ∧ d2 = 2))) →
    exec (.decChr ch) s = .next { s with
      err := s.err ||| (1#11 <<< (c.toNat - 1)), errInfo := firstError s 0xA#4 d2 d1 c
      decState := .aborted, symFifo := [] }

/-- DEC_CHR with a full FIFO is rejected with REJ_FULL whatever the character, and in ABORTED it is ignored (42_decode.md
section 2). -/
def Obligations.DecChrFullOrIgnored : Prop :=
  ∀ (ch : Byte) (s : State), s.busy = false →
    (s.decState = .walk → s.symFifo.length = Config.params.symFifoDepth →
      exec (.decChr ch) s = .next { s with
        err := s.err ||| 0b00000010000#11
        errInfo := firstError s 0xA#4 1 (BitVec.ofNat 8 s.symFifo.length) 5#4 })
    ∧ (s.decState = .aborted → exec (.decChr ch) s = .next s)

/-- DEC_END closes the call: with a partial path in WALK and STRICT_END = 1 it raises TRUNCATED and flushes the FIFO; else
it raises nothing and keeps the FIFO and the counters (42_decode.md section 2). -/
def Obligations.DecEndClosesTheCall : Prop :=
  ∀ s : State, s.busy = false → s.decState ≠ .idle →
    exec .decEnd s = .next (if s.decState = .walk ∧ s.depth ≠ 0 ∧ s.cfg.getLsbD 1 = true then
        { s with
          err := s.err ||| 0b00100000000#11, errInfo := firstError s 0xB#4 s.depth s.cur 9#4
          symFifo := [], decState := .idle, cur := s.root, depth := 0 }
      else { s with decState := .idle, cur := s.root, depth := 0 })

/-- The commands of a decode call whose result is `Ok(out)`, with room for its output: the FIFO holds exactly `out`, the
counters say how many, and no error bit changes (42_decode.md section 3). -/
def Obligations.DecodeCallReturnsItsSymbols : Prop :=
  ∀ (s : State) (x : List Byte) (out : List Sym), s.busy = false → s.decState ≠ .walk →
    s.agenda = commandEvents (decodeCommands x) → decodeCall s.nodes s.root s.cfg x = .ok out →
    out.length < Config.params.symFifoDepth →
    Host.Core.run core (x.length + 2) s = .next { s with
      agenda := [], decState := .idle, cur := s.root, depth := 0, symFifo := out
      decNchr := BitVec.ofNat 32 x.length, decNsym := BitVec.ofNat 32 out.length }

/-- The commands of a decode call whose result is an error: the error's flag is set, its details are latched if nothing
was, the FIFO is empty and DEC_NCHR is the position (42_decode.md section 3; 10_state.md section 2). -/
def Obligations.DecodeCallReportsItsError : Prop :=
  ∀ (s : State) (x : List Byte) (e : Err) (d1 d2 : Byte) (k : Nat), s.busy = false → s.decState ≠ .walk →
    s.agenda = commandEvents (decodeCommands x) → decodeCall s.nodes s.root s.cfg x = .err e d1 d2 k →
    x.length ≤ Config.params.symFifoDepth →
    ∃ t, Host.Core.run core (x.length + 2) s = .next t ∧ t.decState = .idle ∧ t.symFifo = []
      ∧ t.err = s.err ||| (1#11 <<< ((errCode e).toNat - 1))
      ∧ t.errInfo = firstError s (if e = .truncated then 0xB#4 else 0xA#4) d2 d1 (errCode e)
      ∧ t.decNchr = BitVec.ofNat 32 k

/-! ### The generator and the encoder (43_codegen_encode.md) -/

/-- GEN_TABLE, with no encode call open: pending, the table cleared at once, nothing else changed; a decode call may be open
(43_codegen_encode.md section 1). -/
def Obligations.GenTableStartsTheEngine : Prop :=
  ∀ s : State, s.busy = false → s.encState = .idle →
    exec .genTable s = .next { s with busy := true, tableValid := false, code := [] }

/-- R101: the model's generator returns what the loop of R101, with its explicit stack, returns within the visits R103
allows. -/
def Obligations.GeneratorIsTheStackLoop : Prop :=
  ∀ (nodes : Mem Node) (root : NodeIdx),
    genLoop nodes 16512 [(root, [])] [] = some (genTable nodes root)

/-- 43_codegen_encode.md section 1: the ENGINE step, enabled exactly while `busy` = 1, writes the whole table or nothing of
it, raises TREE_MALFORMED with OPC 0x7 on a failure, and clears `busy`. The model's choice: that a turn while `busy` = 0
passes and changes nothing (log 4), that a step with an empty agenda and `busy` = 0 keeps the state (log 3), and, deduced,
that with an empty agenda and `busy` = 1 the next step is the ENGINE step (log 5). -/
def Obligations.EngineStepIsAllOrNothing : Prop :=
  ∀ (s : State) (rest : List Event), s.agenda = .engine :: rest ∨ (s.agenda = [] ∧ rest = []) →
    (s.busy = true → ∀ tbl, genTable s.nodes s.root = .ok tbl →
      step s = .next { s with agenda := rest, code := tbl, tableValid := true, busy := false })
    ∧ (s.busy = true → ∀ i sub, genTable s.nodes s.root = .fail i sub →
      step s = .next { s with
        agenda := rest, err := s.err ||| 0b00000100000#11, errInfo := firstError s 0x7#4 sub i 6#4, busy := false })
    ∧ (s.busy = false → step s = .next { s with agenda := rest })

/-- Generation succeeds exactly on the well-formed tree images of 41_tree.md R90 (43_codegen_encode.md R103 item 2). -/
def Obligations.GenerationSucceedsOnWellFormedImages : Prop :=
  ∀ (nodes : Mem Node) (root : NodeIdx), (∃ tbl, genTable nodes root = .ok tbl) ↔ WellFormedImage nodes root

/-- The codes of a generated table are the paths of the reachable leaves, "0" for a leaf root, and each has 1 to 127 bits
(43_codegen_encode.md R103 item 3). -/
def Obligations.GeneratedCodesAreThePaths : Prop :=
  ∀ (nodes : Mem Node) (root : NodeIdx) (tbl : Mem Code), genTable nodes root = .ok tbl → ∀ (y : Sym) (c : Code),
    (readCode tbl y = some c ↔ ∃ p i, PathTo nodes root p i ∧ readNode nodes i = some (.leaf y)
      ∧ c = if p = [] then [false] else p)
    ∧ (readCode tbl y = some c → 1 ≤ c.length ∧ c.length ≤ 127)

/-- No code of a generated table begins another (43_codegen_encode.md R103 item 4). -/
def Obligations.GeneratedCodesArePrefixFree : Prop :=
  ∀ (nodes : Mem Node) (root : NodeIdx) (tbl : Mem Code), genTable nodes root = .ok tbl →
    ∀ (y z : Sym) (c d : Code), y ≠ z → readCode tbl y = some c → readCode tbl z = some d → ¬ c <+: d

/-- CODE_RD, in any call state: RDATA the read-back word of the entry and part, nothing else changed (43_codegen_encode.md
section 1). -/
def Obligations.CodeRdReadsTheTable : Prop :=
  ∀ (y : Sym) (p : BitVec 3) (s : State), p.toNat ≤ 4 → s.busy = false →
    ∃ v, exec (.codeRd y p) s = .next { s with rdata := v }
      ∧ (readCode s.code y = none → v = 0x00000000#32)
      ∧ ∀ c, readCode s.code y = some c →
          (p = 0 → v = 0x80000000#32 + BitVec.ofNat 32 c.length)
          ∧ (p ≠ 0 → ∀ i < 32, v.getLsbD i = c.getD (32 * (p.toNat - 1) + i) false)

/-- ENC_START opens a call from IDLE and from ABORTED (43_codegen_encode.md section 2). -/
def Obligations.EncStartOpensACall : Prop :=
  ∀ s : State, s.busy = false → s.encState ≠ .active →
    exec .encStart s = .next { s with encState := .active, encFifo := [], encNsym := 0, encNbits := 0 }

/-- ENC_SYM of a symbol with a code that fits: the whole code is pushed, first bit first, and counted (43_codegen_encode.md
section 2). -/
def Obligations.EncSymPushesTheWholeCode : Prop :=
  ∀ (b : Byte) (c : Code) (s : State), s.busy = false → s.encState = .active → b.toNat < 128 →
    s.code.read b.toNat = some c → s.encFifo.length + c.length ≤ Config.params.encFifoDepth →
    exec (.encSym b) s = .next { s with
      encFifo := s.encFifo ++ c, encNsym := s.encNsym + 1, encNbits := s.encNbits + BitVec.ofNat 32 c.length }

/-- ENC_SYM of a byte of 128 or more, or of a symbol with no code: UNMAPPED, the call ABORTED, its FIFO flushed, even when
the FIFO is full (43_codegen_encode.md section 2). -/
def Obligations.EncSymUnmappedAborts : Prop :=
  ∀ (b : Byte) (s : State), s.busy = false → s.encState = .active →
    128 ≤ b.toNat ∨ s.code.read b.toNat = none →
    exec (.encSym b) s = .next { s with
      err := s.err ||| 0b01000000000#11, errInfo := firstError s 0xD#4 0 b 10#4, encState := .aborted, encFifo := [] }

/-- ENC_SYM whose code does not fit is rejected with REJ_FULL, nothing of it pushed; in ABORTED it is ignored
(43_codegen_encode.md section 2). -/
def Obligations.EncSymFullOrIgnored : Prop :=
  ∀ (b : Byte) (s : State), s.busy = false →
    (∀ c, s.encState = .active → b.toNat < 128 → s.code.read b.toNat = some c →
      Config.params.encFifoDepth < s.encFifo.length + c.length →
      exec (.encSym b) s = .next { s with
        err := s.err ||| 0b00000010000#11
        errInfo := firstError s 0xD#4 (BitVec.ofNat 8 c.length) (BitVec.ofNat 8 s.encFifo.length) 5#4 })
    ∧ (s.encState = .aborted → exec (.encSym b) s = .next s)

/-- ENC_END closes the call and keeps the FIFO and the counters (43_codegen_encode.md section 2). -/
def Obligations.EncEndClosesTheCall : Prop :=
  ∀ s : State, s.busy = false → s.encState ≠ .idle → exec .encEnd s = .next { s with encState := .idle }

/-- The commands of an encode call whose result is `Ok(bits)`, with room for its output: the FIFO holds exactly `bits`, the
counters say how many, and no error bit changes (43_codegen_encode.md section 2). -/
def Obligations.EncodeCallReturnsItsBits : Prop :=
  ∀ (s : State) (x : List Byte) (bits : List Bool), s.busy = false → s.encState ≠ .active →
    s.agenda = commandEvents (encodeCommands x) → encodeCall s.code x = .ok bits →
    bits.length ≤ Config.params.encFifoDepth →
    Host.Core.run core (x.length + 2) s = .next { s with
      agenda := [], encState := .idle, encFifo := bits
      encNsym := BitVec.ofNat 32 x.length, encNbits := BitVec.ofNat 32 bits.length }

/-- The round trip: decoding the characters of an encoding gives the symbols back, on every image that generates a table and
under every configuration (43_codegen_encode.md section 2; 45_host_reference.md section 3). -/
def Obligations.DecodingUndoesEncoding : Prop :=
  ∀ (nodes : Mem Node) (root : NodeIdx) (tbl : Mem Code) (cfg : BitVec 5) (ys : List Sym) (bits : List Bool),
    genTable nodes root = .ok tbl → encodeCall tbl (ys.map fun y => y.setWidth 8) = .ok bits →
    decodeCall nodes root cfg (bitChars bits) = .ok ys

/-! ### The host port (44_host_reads.md, 20_memory.md) -/

/-- R112: a read of any register but SYM_OUT and ENC_OUT returns the value of R112's table, as the sums written there, and
changes no state; the FIFOs hold no more than their depths in every state a run reaches. -/
def Obligations.PlainReadsReturnTheTable : Prop :=
  ∀ (s : State) (r : Reg) (rest : List Event), FifosFit s → r ≠ .symOut → r ≠ .encOut →
    s.agenda = .host (.read r) :: rest →
    ∃ v, step s = .next { s with agenda := rest, reads := s.reads ++ [v] }
      ∧ v.toNat = registerNumber Config.params s r

/-- R113, R114: a read of SYM_OUT returns V and the oldest symbol and removes it, a read of ENC_OUT returns V and the oldest
bit as a character and removes it, each in every state; on an empty FIFO it returns 0 and changes nothing. A pop of SYM_OUT
makes room. -/
def Obligations.PopsReturnTheOldestElement : Prop :=
  ∀ (s : State) (rest : List Event),
    (s.agenda = .host (.read .symOut) :: rest →
      (s.symFifo = [] → step s = .next { s with agenda := rest, reads := s.reads ++ [0x00000000#32] })
      ∧ ∀ y ys, s.symFifo = y :: ys → ∃ v t, step s = .next t
          ∧ t = { s with agenda := rest, symFifo := ys, reads := s.reads ++ [v] } ∧ v.toNat = 0x80000000 + y.toNat
          ∧ (FifosFit s → (status Config.params t).getLsbD 8 = true))
    ∧ (s.agenda = .host (.read .encOut) :: rest →
      (s.encFifo = [] → step s = .next { s with agenda := rest, reads := s.reads ++ [0x00000000#32] })
      ∧ ∀ b bs, s.encFifo = b :: bs → ∃ v, v.toNat = 0x80000000 + (if b = false then 0x30 else 0x31)
          ∧ step s = .next { s with agenda := rest, encFifo := bs, reads := s.reads ++ [v] })

/-- R111: a write to any offset 4k but 0 records BAD_ADDR(4k, 0) with OPC 0 and changes nothing else, whatever the data. -/
def Obligations.WriteElsewhereRaisesBadAddr : Prop :=
  ∀ (s : State) (r : Reg) (d : Word) (rest : List Event), r ≠ .cmd → s.agenda = .host (.write r d) :: rest →
    step s = .next { s with
      agenda := rest, err := s.err ||| 0b10000000000#11
      errInfo := firstError s 0#4 0 (BitVec.ofNat 8 (4 * (regIndex r).toNat)) 11#4 }

/-- The bridge: an access becomes a transaction exactly when it is one 32-bit word at a multiple of 4 in the window, and the
register is the one at that offset (20_memory.md sections 3 and 4; the order of the refusals is log 8's choice). -/
def Obligations.BridgePassesAlignedWordsOnly : Prop :=
  ∀ (base : Nat) (a : BusAccess),
    ((∃ t, translateAccess base a = .ok t) ↔ a.bytes = 4 ∧ ∃ k < 16, a.addr = base + 4 * k)
    ∧ ∀ k < 16, a.bytes = 4 → a.addr = base + 4 * k → ∃ r, (regIndex r).toNat = k
        ∧ translateAccess base a = .ok (match a.data with | none => .read r | some d => .write r d)

/-! ### The host reference software (45_host_reference.md) -/

/-- R117: the frequency table holds exactly the symbols with a count above 0, each with its count; bytes of 128 or more are
skipped, and an empty input gives an empty table. -/
def Obligations.FrequencyTableCountsTheSymbols : Prop :=
  (∀ (x : List Byte) (y : Sym) (n : Nat),
    (y, n) ∈ frequencyTable x ↔ 0 < n ∧ n = x.countP (fun b => b.toNat = y.toNat))
  ∧ frequencyTable [] = []

/-- The image of a table of at most 128 entries has a node for each symbol and one for each merge, with the leaves in entries
0 to L - 1 and the root last (45_host_reference.md sections 2). -/
def Obligations.BuiltTreeHasOneNodePerMerge : Prop :=
  ∀ F : List (Sym × Nat), F ≠ [] → F.length ≤ 128 →
    (buildTree F).entries.length = 2 * F.length - 1 ∧ (buildTree F).root.toNat = 2 * F.length - 2
    ∧ (buildTree F).entries.take F.length = F.map (fun e => .leaf e.1)

/-! ### Invariants and runs -/

/-- The reset state meets the invariant. -/
def Obligations.ResetMeetsTheInvariant : Prop := Inv State.reset

/-- Every step keeps the invariant, from every state that meets it: the memories canonical, the table that of the present
tree, the walker's position in range, the FIFOs within their depths, the error record sound. -/
def Obligations.EveryStepKeepsTheInvariant : Prop := ∀ s t : State, Inv s → step s = .next t → Inv t

/-- A step that makes a decode or an encode call void leaves nothing of its output in the FIFO (60_exceptions.md section 3). -/
def Obligations.VoidCallsKeepNoOutput : Prop :=
  ∀ s t : State, step s = .next t →
    (voidsDecodeCall s t → t.symFifo = []) ∧ (voidsEncodeCall s t → t.encFifo = [])

/-- A run ends: from any state, one step for each event still to come and one more bring it to the end of a run, the model's
reading of the ENGINE's weak fairness and of where a run ends (70_reset_and_hazards.md section 4; logs 1, 3, 5, 21). -/
def Obligations.EveryRunEnds : Prop :=
  ∀ s : State, ∃ t, Host.Core.run core (s.agenda.length + 1) s = .next t ∧ runEnded t
end

