-- ==== Sys2Proof/Laws/Decode.lean ====
section
/-! SUPPORT. The decoder's arms by opcode, and the bits of the code read-back word. -/

namespace Sys2Proof

/-- The opcode of a command's word is the command's opcode. -/
theorem wordOpcode_encode (i : Instr) : wordOpcode (encode i) = opcode i := by
  simp only [wordOpcode, encode]; exact BitVec.extractLsb'_append_eq_left

/-- A word of opcode 4 is read in format W. -/
theorem decode_nodeWr {w : Word} (h : wordOpcode w = 0x4#4) : decode w = decodeNodeWr w := by simp [decode, h]

/-- A word of opcode 8 is read in format P. -/
theorem decode_codeRd {w : Word} (h : wordOpcode w = 0x8#4) : decode w = decodeCodeRd w := by simp [decode, h]

/-- A command is accepted when its reserved bits are 0 and only then. -/
theorem ifReservedZero_ok {n : Nat} {r : BitVec n} {i j : Instr} : ifReservedZero r i = .ok j ↔ r = 0 ∧ i = j := by
  unfold ifReservedZero; split <;> simp_all

end Sys2Proof

namespace Sys2Proof.Machine

/-- Bit `i` of the number is element `i` of the list. -/
theorem bitsToNat_testBit (l : List Bool) (i : Nat) : (bitsToNat l).testBit i = l.getD i false := by
  induction l generalizing i with
  | nil => simp [bitsToNat]
  | cons b l ih =>
    cases i with
    | zero => cases b <;> simp [bitsToNat, Nat.testBit_zero]
    | succ i =>
      rw [Nat.testBit_succ, List.getD_cons_succ, ← ih]
      congr 1
      cases b <;> (simp [bitsToNat]; try omega)

/-- CODE_RD's part 0. -/
theorem codeWord_zero (c : Code) : codeWord (some c) 0 = 0x80000000#32 + BitVec.ofNat 32 c.length := rfl

/-- CODE_RD's other parts. -/
theorem codeWord_part {c : Code} {p : BitVec 3} (h : p ≠ 0) :
    codeWord (some c) p = BitVec.ofNat 32 (bitsToNat ((c.drop (32 * (p.toNat - 1))).take 32)) := if_neg h

end Sys2Proof.Machine
end

