-- ==== Sys2Proof/Laws/Memory.lean ====
section
/-! SUPPORT. The laws of the two memories: a read after a write, and the canonical form kept by every operation. -/

namespace Sys2Proof.Machine

variable {α : Type}

@[simp] theorem Mem.read_nil (a : Nat) : Mem.read ([] : Mem α) a = none := rfl

/-- Every index of a canonical memory whose first index is `b` or more is `b` or more. -/
theorem Mem.read_below {size : Nat} : ∀ {m : Mem α} {b : Nat} {v : α}, Mem.wf size ((b, v) :: m) = true →
    ∀ {a : Nat}, a < b → Mem.read ((b, v) :: m) a = none
  | [], b, v, _, a, h => by simp [Mem.read, Nat.ne_of_lt h]
  | (c, w) :: m, b, v, hw, a, h => by
    simp only [Mem.wf, Bool.and_eq_true, decide_eq_true_eq] at hw
    rw [Mem.read, if_neg (Nat.ne_of_lt h)]
    exact Mem.read_below hw.2 (Nat.lt_trans h hw.1)

theorem Mem.wf_tail {size : Nat} {p : Nat × α} {m : Mem α} (h : Mem.wf size (p :: m) = true) : Mem.wf size m = true := by
  obtain ⟨b, v⟩ := p
  cases m with
  | nil => rfl
  | cons q m => simp only [Mem.wf, Bool.and_eq_true] at h; exact h.2

/-- The first index of a canonical memory is in range. -/
theorem Mem.wf_head {size : Nat} : ∀ {m : Mem α} {b : Nat} {v : α}, Mem.wf size ((b, v) :: m) = true → b < size
  | [], b, v, h => by simpa [Mem.wf] using h
  | (c, w) :: m, b, v, h => by
    simp only [Mem.wf, Bool.and_eq_true, decide_eq_true_eq] at h
    exact Nat.lt_trans h.1 (Mem.wf_head h.2)

/-- A read of another entry does not see a write. -/
theorem Mem.read_write_other {a c : Nat} (h : c ≠ a) (v : Option α) : ∀ m : Mem α,
    Mem.read (Mem.write m a v) c = Mem.read m c
  | [] => by cases v <;> simp [Mem.write, Mem.read, h]
  | (b, w) :: m => by
    have ih := Mem.read_write_other h v m
    cases v <;> simp only [Mem.write] <;> split_ifs <;> simp_all [Mem.read]

/-- A read of the written entry gives what was written. -/
theorem Mem.read_write_same {size : Nat} (a : Nat) (v : Option α) : ∀ {m : Mem α}, Mem.wf size m = true →
    Mem.read (Mem.write m a v) a = v
  | [], _ => by cases v <;> simp [Mem.write, Mem.read]
  | (b, w) :: m, hw => by
    have ih := Mem.read_write_same a v (Mem.wf_tail hw)
    cases v with
    | some v =>
      simp only [Mem.write]
      split_ifs <;> simp_all [Mem.read]
    | none =>
      simp only [Mem.write]
      split_ifs with h1 h2
      · exact Mem.read_below hw h1
      · subst h2
        cases m with
        | nil => rfl
        | cons q m =>
          simp only [Mem.wf, Bool.and_eq_true, decide_eq_true_eq] at hw
          exact Mem.read_below hw.2 hw.1
      · simp [Mem.read, h2, ih]

theorem Mem.wf_cons {size : Nat} {a : Nat} {x : α} {m : Mem α} (ha : a < size) (hm : Mem.wf size m = true)
    (hlt : ∀ q ∈ m.head?, a < q.1) : Mem.wf size ((a, x) :: m) = true := by
  cases m with
  | nil => simpa [Mem.wf] using ha
  | cons q m => simp only [Mem.wf, Bool.and_eq_true, decide_eq_true_eq]; exact ⟨hlt q (by simp), hm⟩

theorem Mem.head_lt {size : Nat} {p q : Nat × α} {m : Mem α} (hw : Mem.wf size (p :: m) = true) (hq : q ∈ m.head?) :
    p.1 < q.1 := by
  cases m with
  | nil => simp at hq
  | cons r m =>
    simp only [Mem.wf, Bool.and_eq_true, decide_eq_true_eq] at hw
    simp only [List.head?_cons, Option.mem_def, Option.some.injEq] at hq
    exact hq ▸ hw.1

theorem Mem.head_write {size : Nat} {b : Nat} {w : α} {a : Nat} (hb : b < a) (v : Option α) : ∀ {m : Mem α},
    Mem.wf size ((b, w) :: m) = true → ∀ q ∈ (Mem.write m a v).head?, b < q.1 := by
  intro m hw q hq
  cases m with
  | nil => cases v <;> simp [Mem.write] at hq; subst hq; exact hb
  | cons r m =>
    obtain ⟨c, y⟩ := r
    have hbc : b < c := Mem.head_lt hw (q := (c, y)) (by simp)
    cases v with
    | some v =>
      simp only [Mem.write] at hq
      split_ifs at hq <;> simp at hq <;> subst hq <;> first | exact hb | exact hbc
    | none =>
      simp only [Mem.write] at hq
      split_ifs at hq
      · simp at hq; subst hq; exact hbc
      · exact Nat.lt_trans hbc (Mem.head_lt (Mem.wf_tail hw) hq)
      · simp at hq; subst hq; exact hbc

/-- A write keeps the canonical form. -/
theorem Mem.wf_write {size : Nat} {a : Nat} (ha : a < size) (v : Option α) : ∀ {m : Mem α}, Mem.wf size m = true →
    Mem.wf size (Mem.write m a v) = true
  | [], _ => by cases v <;> simp [Mem.write, Mem.wf, ha]
  | (b, w) :: m, hw => by
    have ih := Mem.wf_write ha v (Mem.wf_tail hw)
    have hb := Mem.wf_head hw
    cases v with
    | some v =>
      simp only [Mem.write]
      split_ifs with h1 h2
      · exact Mem.wf_cons ha hw (by simpa using h1)
      · exact Mem.wf_cons ha (Mem.wf_tail hw) (fun q hq => h2 ▸ Mem.head_lt hw hq)
      · exact Mem.wf_cons hb ih (Mem.head_write (by omega) _ hw)
    | none =>
      simp only [Mem.write]
      split_ifs with h1 h2
      · exact hw
      · exact Mem.wf_tail hw
      · exact Mem.wf_cons hb ih (Mem.head_write (by omega) _ hw)

/-- The memories of the reset state are canonical. -/
theorem State.reset_nodes_wf : State.reset.nodes.wf Config.nodeCount = true := rfl

theorem State.reset_code_wf : State.reset.code.wf Config.numSyms = true := rfl

/-- A node read after a node write to the same entry. -/
theorem readNode_write_same {nodes : Mem Node} (h : nodes.wf Config.nodeCount = true) (i : NodeIdx) (n : Option Node) :
    readNode (nodes.write i.toNat n) i = n := Mem.read_write_same _ n h

/-- A node write leaves every other entry alone. -/
theorem readNode_write_other {i j : NodeIdx} (h : j ≠ i) (nodes : Mem Node) (n : Option Node) :
    readNode (nodes.write i.toNat n) j = readNode nodes j :=
  Mem.read_write_other (fun e => h (BitVec.eq_of_toNat_eq e)) n nodes

/-- A node write keeps the canonical form: every 8-bit index is in range. -/
theorem wf_writeNode {nodes : Mem Node} (h : nodes.wf Config.nodeCount = true) (i : NodeIdx) (n : Option Node) :
    Mem.wf Config.nodeCount (nodes.write i.toNat n) = true := Mem.wf_write i.isLt n h

/-- A code write keeps the canonical form: every 7-bit symbol is in range. -/
theorem wf_writeCode {code : Mem Code} (h : code.wf Config.numSyms = true) (y : Sym) (c : Option Code) :
    Mem.wf Config.numSyms (code.write y.toNat c) = true := Mem.wf_write y.isLt c h

end Sys2Proof.Machine
end

