-- ==== Sys2Proof/Laws/State.lean ====
section
/-! SUPPORT. One lemma per field and per named update of State: what the update leaves in the field. -/

namespace Sys2Proof.Machine

variable (s : State)

@[simp] theorem raise_cfg (e : Err) (opc : BitVec 4) (d1 d2 : Byte) : (raise e opc d1 d2 s).cfg = s.cfg := rfl
@[simp] theorem raise_err (e : Err) (opc : BitVec 4) (d1 d2 : Byte) : (raise e opc d1 d2 s).err = s.err ||| errFlag e := rfl
@[simp] theorem raise_errInfo (e : Err) (opc : BitVec 4) (d1 d2 : Byte) : (raise e opc d1 d2 s).errInfo = if s.errInfo.v then s.errInfo else ⟨true, opc, d2, d1, errCode e⟩ := rfl
@[simp] theorem raise_nodes (e : Err) (opc : BitVec 4) (d1 d2 : Byte) : (raise e opc d1 d2 s).nodes = s.nodes := rfl
@[simp] theorem raise_root (e : Err) (opc : BitVec 4) (d1 d2 : Byte) : (raise e opc d1 d2 s).root = s.root := rfl
@[simp] theorem raise_code (e : Err) (opc : BitVec 4) (d1 d2 : Byte) : (raise e opc d1 d2 s).code = s.code := rfl
@[simp] theorem raise_tableValid (e : Err) (opc : BitVec 4) (d1 d2 : Byte) : (raise e opc d1 d2 s).tableValid = s.tableValid := rfl
@[simp] theorem raise_busy (e : Err) (opc : BitVec 4) (d1 d2 : Byte) : (raise e opc d1 d2 s).busy = s.busy := rfl
@[simp] theorem raise_decState (e : Err) (opc : BitVec 4) (d1 d2 : Byte) : (raise e opc d1 d2 s).decState = s.decState := rfl
@[simp] theorem raise_cur (e : Err) (opc : BitVec 4) (d1 d2 : Byte) : (raise e opc d1 d2 s).cur = s.cur := rfl
@[simp] theorem raise_depth (e : Err) (opc : BitVec 4) (d1 d2 : Byte) : (raise e opc d1 d2 s).depth = s.depth := rfl
@[simp] theorem raise_symFifo (e : Err) (opc : BitVec 4) (d1 d2 : Byte) : (raise e opc d1 d2 s).symFifo = s.symFifo := rfl
@[simp] theorem raise_decNchr (e : Err) (opc : BitVec 4) (d1 d2 : Byte) : (raise e opc d1 d2 s).decNchr = s.decNchr := rfl
@[simp] theorem raise_decNsym (e : Err) (opc : BitVec 4) (d1 d2 : Byte) : (raise e opc d1 d2 s).decNsym = s.decNsym := rfl
@[simp] theorem raise_encState (e : Err) (opc : BitVec 4) (d1 d2 : Byte) : (raise e opc d1 d2 s).encState = s.encState := rfl
@[simp] theorem raise_encFifo (e : Err) (opc : BitVec 4) (d1 d2 : Byte) : (raise e opc d1 d2 s).encFifo = s.encFifo := rfl
@[simp] theorem raise_encNsym (e : Err) (opc : BitVec 4) (d1 d2 : Byte) : (raise e opc d1 d2 s).encNsym = s.encNsym := rfl
@[simp] theorem raise_encNbits (e : Err) (opc : BitVec 4) (d1 d2 : Byte) : (raise e opc d1 d2 s).encNbits = s.encNbits := rfl
@[simp] theorem raise_rdata (e : Err) (opc : BitVec 4) (d1 d2 : Byte) : (raise e opc d1 d2 s).rdata = s.rdata := rfl
@[simp] theorem raise_agenda (e : Err) (opc : BitVec 4) (d1 d2 : Byte) : (raise e opc d1 d2 s).agenda = s.agenda := rfl
@[simp] theorem raise_reads (e : Err) (opc : BitVec 4) (d1 d2 : Byte) : (raise e opc d1 d2 s).reads = s.reads := rfl

@[simp] theorem clearErrors_cfg : (clearErrors s).cfg = s.cfg := rfl
@[simp] theorem clearErrors_err : (clearErrors s).err = State.reset.err := rfl
@[simp] theorem clearErrors_errInfo : (clearErrors s).errInfo = State.reset.errInfo := rfl
@[simp] theorem clearErrors_nodes : (clearErrors s).nodes = s.nodes := rfl
@[simp] theorem clearErrors_root : (clearErrors s).root = s.root := rfl
@[simp] theorem clearErrors_code : (clearErrors s).code = s.code := rfl
@[simp] theorem clearErrors_tableValid : (clearErrors s).tableValid = s.tableValid := rfl
@[simp] theorem clearErrors_busy : (clearErrors s).busy = s.busy := rfl
@[simp] theorem clearErrors_decState : (clearErrors s).decState = s.decState := rfl
@[simp] theorem clearErrors_cur : (clearErrors s).cur = s.cur := rfl
@[simp] theorem clearErrors_depth : (clearErrors s).depth = s.depth := rfl
@[simp] theorem clearErrors_symFifo : (clearErrors s).symFifo = s.symFifo := rfl
@[simp] theorem clearErrors_decNchr : (clearErrors s).decNchr = s.decNchr := rfl
@[simp] theorem clearErrors_decNsym : (clearErrors s).decNsym = s.decNsym := rfl
@[simp] theorem clearErrors_encState : (clearErrors s).encState = s.encState := rfl
@[simp] theorem clearErrors_encFifo : (clearErrors s).encFifo = s.encFifo := rfl
@[simp] theorem clearErrors_encNsym : (clearErrors s).encNsym = s.encNsym := rfl
@[simp] theorem clearErrors_encNbits : (clearErrors s).encNbits = s.encNbits := rfl
@[simp] theorem clearErrors_rdata : (clearErrors s).rdata = s.rdata := rfl
@[simp] theorem clearErrors_agenda : (clearErrors s).agenda = s.agenda := rfl
@[simp] theorem clearErrors_reads : (clearErrors s).reads = s.reads := rfl

@[simp] theorem clearTable_cfg : (clearTable s).cfg = s.cfg := rfl
@[simp] theorem clearTable_err : (clearTable s).err = s.err := rfl
@[simp] theorem clearTable_errInfo : (clearTable s).errInfo = s.errInfo := rfl
@[simp] theorem clearTable_nodes : (clearTable s).nodes = s.nodes := rfl
@[simp] theorem clearTable_root : (clearTable s).root = s.root := rfl
@[simp] theorem clearTable_code : (clearTable s).code = [] := rfl
@[simp] theorem clearTable_tableValid : (clearTable s).tableValid = false := rfl
@[simp] theorem clearTable_busy : (clearTable s).busy = s.busy := rfl
@[simp] theorem clearTable_decState : (clearTable s).decState = s.decState := rfl
@[simp] theorem clearTable_cur : (clearTable s).cur = s.cur := rfl
@[simp] theorem clearTable_depth : (clearTable s).depth = s.depth := rfl
@[simp] theorem clearTable_symFifo : (clearTable s).symFifo = s.symFifo := rfl
@[simp] theorem clearTable_decNchr : (clearTable s).decNchr = s.decNchr := rfl
@[simp] theorem clearTable_decNsym : (clearTable s).decNsym = s.decNsym := rfl
@[simp] theorem clearTable_encState : (clearTable s).encState = s.encState := rfl
@[simp] theorem clearTable_encFifo : (clearTable s).encFifo = s.encFifo := rfl
@[simp] theorem clearTable_encNsym : (clearTable s).encNsym = s.encNsym := rfl
@[simp] theorem clearTable_encNbits : (clearTable s).encNbits = s.encNbits := rfl
@[simp] theorem clearTable_rdata : (clearTable s).rdata = s.rdata := rfl
@[simp] theorem clearTable_agenda : (clearTable s).agenda = s.agenda := rfl
@[simp] theorem clearTable_reads : (clearTable s).reads = s.reads := rfl

@[simp] theorem abortDec_cfg : (abortDec s).cfg = s.cfg := rfl
@[simp] theorem abortDec_err : (abortDec s).err = s.err := rfl
@[simp] theorem abortDec_errInfo : (abortDec s).errInfo = s.errInfo := rfl
@[simp] theorem abortDec_nodes : (abortDec s).nodes = s.nodes := rfl
@[simp] theorem abortDec_root : (abortDec s).root = s.root := rfl
@[simp] theorem abortDec_code : (abortDec s).code = s.code := rfl
@[simp] theorem abortDec_tableValid : (abortDec s).tableValid = s.tableValid := rfl
@[simp] theorem abortDec_busy : (abortDec s).busy = s.busy := rfl
@[simp] theorem abortDec_decState : (abortDec s).decState = .aborted := rfl
@[simp] theorem abortDec_cur : (abortDec s).cur = s.cur := rfl
@[simp] theorem abortDec_depth : (abortDec s).depth = s.depth := rfl
@[simp] theorem abortDec_symFifo : (abortDec s).symFifo = [] := rfl
@[simp] theorem abortDec_decNchr : (abortDec s).decNchr = s.decNchr := rfl
@[simp] theorem abortDec_decNsym : (abortDec s).decNsym = s.decNsym := rfl
@[simp] theorem abortDec_encState : (abortDec s).encState = s.encState := rfl
@[simp] theorem abortDec_encFifo : (abortDec s).encFifo = s.encFifo := rfl
@[simp] theorem abortDec_encNsym : (abortDec s).encNsym = s.encNsym := rfl
@[simp] theorem abortDec_encNbits : (abortDec s).encNbits = s.encNbits := rfl
@[simp] theorem abortDec_rdata : (abortDec s).rdata = s.rdata := rfl
@[simp] theorem abortDec_agenda : (abortDec s).agenda = s.agenda := rfl
@[simp] theorem abortDec_reads : (abortDec s).reads = s.reads := rfl

@[simp] theorem abortEnc_cfg : (abortEnc s).cfg = s.cfg := rfl
@[simp] theorem abortEnc_err : (abortEnc s).err = s.err := rfl
@[simp] theorem abortEnc_errInfo : (abortEnc s).errInfo = s.errInfo := rfl
@[simp] theorem abortEnc_nodes : (abortEnc s).nodes = s.nodes := rfl
@[simp] theorem abortEnc_root : (abortEnc s).root = s.root := rfl
@[simp] theorem abortEnc_code : (abortEnc s).code = s.code := rfl
@[simp] theorem abortEnc_tableValid : (abortEnc s).tableValid = s.tableValid := rfl
@[simp] theorem abortEnc_busy : (abortEnc s).busy = s.busy := rfl
@[simp] theorem abortEnc_decState : (abortEnc s).decState = s.decState := rfl
@[simp] theorem abortEnc_cur : (abortEnc s).cur = s.cur := rfl
@[simp] theorem abortEnc_depth : (abortEnc s).depth = s.depth := rfl
@[simp] theorem abortEnc_symFifo : (abortEnc s).symFifo = s.symFifo := rfl
@[simp] theorem abortEnc_decNchr : (abortEnc s).decNchr = s.decNchr := rfl
@[simp] theorem abortEnc_decNsym : (abortEnc s).decNsym = s.decNsym := rfl
@[simp] theorem abortEnc_encState : (abortEnc s).encState = .aborted := rfl
@[simp] theorem abortEnc_encFifo : (abortEnc s).encFifo = [] := rfl
@[simp] theorem abortEnc_encNsym : (abortEnc s).encNsym = s.encNsym := rfl
@[simp] theorem abortEnc_encNbits : (abortEnc s).encNbits = s.encNbits := rfl
@[simp] theorem abortEnc_rdata : (abortEnc s).rdata = s.rdata := rfl
@[simp] theorem abortEnc_agenda : (abortEnc s).agenda = s.agenda := rfl
@[simp] theorem abortEnc_reads : (abortEnc s).reads = s.reads := rfl

@[simp] theorem pushCode_cfg (c : Code) : (pushCode c s).cfg = s.cfg := rfl
@[simp] theorem pushCode_err (c : Code) : (pushCode c s).err = s.err := rfl
@[simp] theorem pushCode_errInfo (c : Code) : (pushCode c s).errInfo = s.errInfo := rfl
@[simp] theorem pushCode_nodes (c : Code) : (pushCode c s).nodes = s.nodes := rfl
@[simp] theorem pushCode_root (c : Code) : (pushCode c s).root = s.root := rfl
@[simp] theorem pushCode_code (c : Code) : (pushCode c s).code = s.code := rfl
@[simp] theorem pushCode_tableValid (c : Code) : (pushCode c s).tableValid = s.tableValid := rfl
@[simp] theorem pushCode_busy (c : Code) : (pushCode c s).busy = s.busy := rfl
@[simp] theorem pushCode_decState (c : Code) : (pushCode c s).decState = s.decState := rfl
@[simp] theorem pushCode_cur (c : Code) : (pushCode c s).cur = s.cur := rfl
@[simp] theorem pushCode_depth (c : Code) : (pushCode c s).depth = s.depth := rfl
@[simp] theorem pushCode_symFifo (c : Code) : (pushCode c s).symFifo = s.symFifo := rfl
@[simp] theorem pushCode_decNchr (c : Code) : (pushCode c s).decNchr = s.decNchr := rfl
@[simp] theorem pushCode_decNsym (c : Code) : (pushCode c s).decNsym = s.decNsym := rfl
@[simp] theorem pushCode_encState (c : Code) : (pushCode c s).encState = s.encState := rfl
@[simp] theorem pushCode_encFifo (c : Code) : (pushCode c s).encFifo = s.encFifo ++ c := rfl
@[simp] theorem pushCode_encNsym (c : Code) : (pushCode c s).encNsym = s.encNsym + 1 := rfl
@[simp] theorem pushCode_encNbits (c : Code) : (pushCode c s).encNbits = s.encNbits + BitVec.ofNat 32 c.length := rfl
@[simp] theorem pushCode_rdata (c : Code) : (pushCode c s).rdata = s.rdata := rfl
@[simp] theorem pushCode_agenda (c : Code) : (pushCode c s).agenda = s.agenda := rfl
@[simp] theorem pushCode_reads (c : Code) : (pushCode c s).reads = s.reads := rfl

@[simp] theorem resetDevice_cfg : (resetDevice s).cfg = State.reset.cfg := rfl
@[simp] theorem resetDevice_err : (resetDevice s).err = State.reset.err := rfl
@[simp] theorem resetDevice_errInfo : (resetDevice s).errInfo = State.reset.errInfo := rfl
@[simp] theorem resetDevice_nodes : (resetDevice s).nodes = State.reset.nodes := rfl
@[simp] theorem resetDevice_root : (resetDevice s).root = State.reset.root := rfl
@[simp] theorem resetDevice_code : (resetDevice s).code = State.reset.code := rfl
@[simp] theorem resetDevice_tableValid : (resetDevice s).tableValid = State.reset.tableValid := rfl
@[simp] theorem resetDevice_busy : (resetDevice s).busy = State.reset.busy := rfl
@[simp] theorem resetDevice_decState : (resetDevice s).decState = State.reset.decState := rfl
@[simp] theorem resetDevice_cur : (resetDevice s).cur = State.reset.cur := rfl
@[simp] theorem resetDevice_depth : (resetDevice s).depth = State.reset.depth := rfl
@[simp] theorem resetDevice_symFifo : (resetDevice s).symFifo = State.reset.symFifo := rfl
@[simp] theorem resetDevice_decNchr : (resetDevice s).decNchr = State.reset.decNchr := rfl
@[simp] theorem resetDevice_decNsym : (resetDevice s).decNsym = State.reset.decNsym := rfl
@[simp] theorem resetDevice_encState : (resetDevice s).encState = State.reset.encState := rfl
@[simp] theorem resetDevice_encFifo : (resetDevice s).encFifo = State.reset.encFifo := rfl
@[simp] theorem resetDevice_encNsym : (resetDevice s).encNsym = State.reset.encNsym := rfl
@[simp] theorem resetDevice_encNbits : (resetDevice s).encNbits = State.reset.encNbits := rfl
@[simp] theorem resetDevice_rdata : (resetDevice s).rdata = State.reset.rdata := rfl
@[simp] theorem resetDevice_agenda : (resetDevice s).agenda = s.agenda := rfl
@[simp] theorem resetDevice_reads : (resetDevice s).reads = s.reads := rfl

@[simp] theorem bodyClear_cfg : (bodyClear s).cfg = s.cfg := rfl
@[simp] theorem bodyClear_err : (bodyClear s).err = s.err := rfl
@[simp] theorem bodyClear_errInfo : (bodyClear s).errInfo = s.errInfo := rfl
@[simp] theorem bodyClear_nodes : (bodyClear s).nodes = State.reset.nodes := rfl
@[simp] theorem bodyClear_root : (bodyClear s).root = State.reset.root := rfl
@[simp] theorem bodyClear_code : (bodyClear s).code = State.reset.code := rfl
@[simp] theorem bodyClear_tableValid : (bodyClear s).tableValid = State.reset.tableValid := rfl
@[simp] theorem bodyClear_busy : (bodyClear s).busy = State.reset.busy := rfl
@[simp] theorem bodyClear_decState : (bodyClear s).decState = State.reset.decState := rfl
@[simp] theorem bodyClear_cur : (bodyClear s).cur = State.reset.cur := rfl
@[simp] theorem bodyClear_depth : (bodyClear s).depth = State.reset.depth := rfl
@[simp] theorem bodyClear_symFifo : (bodyClear s).symFifo = State.reset.symFifo := rfl
@[simp] theorem bodyClear_decNchr : (bodyClear s).decNchr = State.reset.decNchr := rfl
@[simp] theorem bodyClear_decNsym : (bodyClear s).decNsym = State.reset.decNsym := rfl
@[simp] theorem bodyClear_encState : (bodyClear s).encState = State.reset.encState := rfl
@[simp] theorem bodyClear_encFifo : (bodyClear s).encFifo = State.reset.encFifo := rfl
@[simp] theorem bodyClear_encNsym : (bodyClear s).encNsym = State.reset.encNsym := rfl
@[simp] theorem bodyClear_encNbits : (bodyClear s).encNbits = State.reset.encNbits := rfl
@[simp] theorem bodyClear_rdata : (bodyClear s).rdata = State.reset.rdata := rfl
@[simp] theorem bodyClear_agenda : (bodyClear s).agenda = s.agenda := rfl
@[simp] theorem bodyClear_reads : (bodyClear s).reads = s.reads := rfl

end Sys2Proof.Machine
end

