-- ==== Sys2Proof/Laws/Ops.lean ====
section
/-! SUPPORT. One lemma per shared operation that says what it can do: the parameters' ranges, the checks of the pipeline,
the walker, the generator's visits. -/

namespace Sys2Proof.Machine

/-- The open depths are in the ranges of 00_scope.md R12, whatever they are. -/
theorem params_inRange : Config.params.inRange := by
  have h1 := Config.symDepthIndex.isLt
  have h2 := Config.encDepthIndex.isLt
  refine ⟨⟨?_, ?_⟩, ?_, ?_⟩ <;> simp only [Config.params] <;> omega

theorem symFifoDepth_pos : 0 < Config.params.symFifoDepth := params_inRange.1.1

theorem encFifoDepth_ge : 127 ≤ Config.params.encFifoDepth := params_inRange.2.1

/-- A command of the busy interlock, while a GEN_TABLE is pending. -/
theorem issue_busy {i : Instr} {body : State → State} {s : State} (h : s.busy = true) (he : busyExempt i = false) :
    issue i body s = raise .rejBusy (opcode i) 0 0 s := by simp [issue, h, he]

/-- A command whose precondition fails. -/
theorem issue_wrongState {i : Instr} {body : State → State} {s : State} (h : s.busy = false ∨ busyExempt i = true)
    (hp : precondition s i = false) : issue i body s = raise .rejState (opcode i) (statusByte s) 0 s := by
  rcases h with h | h <;> simp [issue, h, hp]

/-- A command that passes the checks. -/
theorem issue_passes {i : Instr} {body : State → State} {s : State} (h : passesChecks s i) : issue i body s = body s := by
  obtain ⟨h | h, hp⟩ := h <;> simp [issue, h, hp]

/-- Everything the pipeline can do after decoding. -/
theorem issue_cases (i : Instr) (body : State → State) (s : State) :
    (s.busy = true ∧ busyExempt i = false ∧ issue i body s = raise .rejBusy (opcode i) 0 0 s)
      ∨ ((s.busy = false ∨ busyExempt i = true) ∧ precondition s i = false
          ∧ issue i body s = raise .rejState (opcode i) (statusByte s) 0 s)
      ∨ (passesChecks s i ∧ issue i body s = body s) := by
  cases hb : s.busy <;> cases he : busyExempt i <;> cases hp : precondition s i <;>
    simp [issue, passesChecks, hb, he, hp]

/-- The body of each command. -/
def bodyOf : Instr → State → State
  | .nop => id
  | .clear => bodyClear
  | .clrErr => clearErrors
  | .setCfg flags => bodySetCfg flags
  | .nodeWr idx node => bodyNodeWr idx node
  | .setRoot idx => bodySetRoot idx
  | .nodeRd idx => bodyNodeRd idx
  | .genTable => bodyGenTable
  | .codeRd sym part => bodyCodeRd sym part
  | .decStart => bodyDecStart
  | .decChr ch => bodyDecChr Config.params ch
  | .decEnd => bodyDecEnd
  | .encStart => bodyEncStart
  | .encSym b => bodyEncSym Config.params b
  | .encEnd => bodyEncEnd

/-- Every meaning is the pipeline over its body. -/
theorem exec_eq (i : Instr) (s : State) : exec i s = .next (issue i (bodyOf i) s) := by cases i <;> rfl

/-- The next event is taken off the agenda and performed. -/
theorem step_cons {s : State} {e : Event} {rest : List Event} (h : s.agenda = e :: rest) :
    step s = perform e { s with agenda := rest } := by simp [step, advance, h]

/-- With nothing to come, the ENGINE has its turn. -/
theorem step_nil {s : State} (h : s.agenda = []) : step s = .next (engineTurn s) := by simp [step, advance, h]

theorem engineTurn_idle {s : State} (h : s.busy = false) : engineTurn s = s := by simp [engineTurn, h]

theorem engineTurn_busy {s : State} (h : s.busy = true) : engineTurn s = engineStep s := by simp [engineTurn, h]

/-- Everything the ENGINE step can do. -/
theorem engineStep_cases (s : State) :
    (∃ tbl, genTable s.nodes s.root = .ok tbl
        ∧ engineStep s = { s with code := tbl, tableValid := true, busy := false })
      ∨ (∃ i sub, genTable s.nodes s.root = .fail i sub
        ∧ engineStep s = { raise .treeMalformed engineOpcode i sub s with busy := false }) := by
  unfold engineStep
  cases genTable s.nodes s.root with
  | ok tbl => exact .inl ⟨tbl, rfl, rfl⟩
  | fail i sub => exact .inr ⟨i, sub, rfl, rfl⟩

/-- The traversal at an entry that holds nothing. -/
theorem visit_none {nodes : Mem Node} {i : NodeIdx} (h : readNode nodes i = none) (room : Nat) (p : Code)
    (tbl : Mem Code) : visit nodes room i p tbl = .fail i 1 := by unfold visit; simp [h]

/-- The traversal at a leaf. -/
theorem visit_leaf {nodes : Mem Node} {i : NodeIdx} {y : Sym} (h : readNode nodes i = some (.leaf y)) (room : Nat)
    (p : Code) (tbl : Mem Code) : visit nodes room i p tbl = visitLeaf i y p tbl := by unfold visit; simp [h]

/-- The traversal at an internal node at depth 127. -/
theorem visit_tooDeep {nodes : Mem Node} {i l r : NodeIdx} (h : readNode nodes i = some (.internal l r)) (p : Code)
    (tbl : Mem Code) : visit nodes 0 i p tbl = .fail i 2 := by unfold visit; simp [h]

/-- The traversal at an internal node above that: the left subtree, then the right one with the table it leaves. -/
theorem visit_internal {nodes : Mem Node} {i l r : NodeIdx} (h : readNode nodes i = some (.internal l r)) (room : Nat)
    (p : Code) (tbl : Mem Code) :
    visit nodes (room + 1) i p tbl =
      match visit nodes room l (p ++ [false]) tbl with
      | .fail j sub => .fail j sub
      | .ok tbl => visit nodes room r (p ++ [true]) tbl := by
  rw [visit]; simp only [h]
  all_goals (cases visit nodes room l (p ++ [false]) tbl <;> rfl)

/-- The walker at a position whose entry is an internal node. -/
theorem walk_internal {nodes : Mem Node} {cfg : BitVec 5} {cur l r : NodeIdx} {depth : BitVec 8} {ch : Byte} {d : Dir}
    (hd : dir ch cfg = some d) (hn : readNode nodes cur = some (.internal l r)) :
    walk nodes cfg cur depth ch = walkChild nodes depth (childIn d l r) := by
  simp [walk, hd, hn]

/-- The walker at a character it rejects. -/
theorem walk_badChar {nodes : Mem Node} {cfg : BitVec 5} {cur : NodeIdx} {depth : BitVec 8} {ch : Byte}
    (hd : dir ch cfg = none) : walk nodes cfg cur depth ch = .abort .badChar ch depth := by simp [walk, hd]

end Sys2Proof.Machine
end

