-- ==== Sys2Proof/Laws/Step.lean ====
section
/-! SUPPORT. What one step can do, said once: the cases a proof about every step goes through. -/

namespace Sys2Proof.Machine

/-- The error a refused word raises (30_encoding.md R75). -/
def wordErr : DecodeError → Err
  | .badOpcode => .badOpcode
  | .badOperand => .badOperand

/-- Everything a step can do: `StepCase s t` holds of exactly the `t` that follows `s` (`step_cases`, `step_of_case`). -/
inductive StepCase (s : State) : State → Prop where
  /-- Nothing to come: the ENGINE's turn. -/
  | wait (h : s.agenda = []) : StepCase s (engineTurn s)
  /-- The ENGINE's turn, from the agenda. -/
  | turn (rest : List Event) (h : s.agenda = .engine :: rest) : StepCase s (engineTurn { s with agenda := rest })
  /-- A reset. -/
  | reset (rest : List Event) (h : s.agenda = .reset :: rest) : StepCase s (resetDevice { s with agenda := rest })
  /-- A read. -/
  | read (r : Reg) (rest : List Event) (h : s.agenda = .host (.read r) :: rest) :
      StepCase s (hostRead Config.params r { s with agenda := rest })
  /-- A write to another register than CMD. -/
  | badAddr (r : Reg) (d : Word) (rest : List Event) (h : s.agenda = .host (.write r d) :: rest) (hr : r ≠ .cmd) :
      StepCase s (raise .badAddr 0 (regOffset r) 0 { s with agenda := rest })
  /-- A word that spells no command. -/
  | badWord (w : Word) (e : DecodeError) (rest : List Event) (h : s.agenda = .host (.write .cmd w) :: rest)
      (hd : decode w = .error e) :
      StepCase s (raise (wordErr e) (wordOpcode w) (wordByte0 w) (wordByte1 w) { s with agenda := rest })
  /-- A command. -/
  | command (w : Word) (i : Instr) (rest : List Event) (h : s.agenda = .host (.write .cmd w) :: rest)
      (hd : decode w = .ok i) : StepCase s (issue i (bodyOf i) { s with agenda := rest })

/-- A refused word only raises its error. -/
theorem execute_error {w : Word} {e : DecodeError} (hd : decode w = .error e) (s : State) :
    execute w s = .next (raise (wordErr e) (wordOpcode w) (wordByte0 w) (wordByte1 w) s) := by
  cases e <;> simp [execute, hd, wordErr]

/-- An accepted word is the command's meaning. -/
theorem execute_ok {w : Word} {i : Instr} (hd : decode w = .ok i) (s : State) :
    execute w s = .next (issue i (bodyOf i) s) := by simp [execute, hd, exec_eq]

/-- A step answers a next state by one of the cases. -/
theorem step_cases {s t : State} (h : step s = .next t) : StepCase s t := by
  match ha : s.agenda with
  | [] => rw [step_nil ha] at h; cases h; exact .wait ha
  | .engine :: rest => rw [step_cons ha] at h; cases h; exact .turn rest ha
  | .reset :: rest => rw [step_cons ha] at h; cases h; exact .reset rest ha
  | .host (.read r) :: rest => rw [step_cons ha] at h; cases h; exact .read r rest ha
  | .host (.write r d) :: rest =>
    rw [step_cons ha] at h
    by_cases hr : r = .cmd
    · subst hr
      have h : execute d { s with agenda := rest } = .next t := h
      cases hd : decode d with
      | error e => rw [execute_error hd] at h; cases h; exact .badWord d e rest ha hd
      | ok i => rw [execute_ok hd] at h; cases h; exact .command d i rest ha hd
    · simp only [perform, hostWrite, if_neg hr] at h; cases h; exact .badAddr r d rest ha hr

/-- Each case is a step. -/
theorem step_of_case {s t : State} (h : StepCase s t) : step s = .next t := by
  cases h with
  | wait h => exact step_nil h
  | turn rest h => exact step_cons h
  | reset rest h => exact step_cons h
  | read r rest h => exact step_cons h
  | badAddr r d rest h hr => rw [step_cons h]; simp [perform, hostWrite, hr]
  | badWord w e rest h hd => rw [step_cons h]; exact execute_error hd _
  | command w i rest h hd => rw [step_cons h]; exact execute_ok hd _

/-- A step always answers a next state. -/
theorem step_next (s : State) : ∃ t, step s = .next t := by
  have hx : ∀ (w : Word) (u : State), ∃ t, execute w u = .next t := fun w u => by
    cases hd : decode w with
    | error e => exact ⟨_, execute_error hd u⟩
    | ok i => exact ⟨_, execute_ok hd u⟩
  match ha : s.agenda with
  | [] => exact ⟨_, step_nil ha⟩
  | .engine :: rest => exact ⟨_, step_cons ha⟩
  | .reset :: rest => exact ⟨_, step_cons ha⟩
  | .host (.read r) :: rest => exact ⟨_, step_cons ha⟩
  | .host (.write r d) :: rest =>
    rw [step_cons ha]; simp only [perform, hostWrite]
    split
    · exact hx d _
    · exact ⟨_, rfl⟩

/-- DEC_END with a partial path in WALK under STRICT_END. -/
theorem bodyDecEnd_truncated {s : State} (h : s.decState = .walk ∧ s.depth ≠ 0 ∧ strictEnd s.cfg = true) :
    bodyDecEnd s = { raise .truncated (opcode .decEnd) s.cur s.depth s with
      symFifo := [], decState := .idle, cur := s.root, depth := 0 } := if_pos h

/-- DEC_END otherwise. -/
theorem bodyDecEnd_plain {s : State} (h : ¬ (s.decState = .walk ∧ s.depth ≠ 0 ∧ strictEnd s.cfg = true)) :
    bodyDecEnd s = { s with decState := .idle, cur := s.root, depth := 0 } := if_neg h

/-- Everything DEC_CHR's body can do. -/
theorem bodyDecChr_cases (P : Params) (ch : Byte) (s : State) :
    (s.decState = .aborted ∧ bodyDecChr P ch s = s)
      ∨ (s.decState ≠ .aborted ∧ s.symFifo.length = P.symFifoDepth
          ∧ bodyDecChr P ch s = raise .rejFull (opcode (.decChr ch)) (BitVec.ofNat 8 s.symFifo.length) 1 s)
      ∨ (s.decState ≠ .aborted ∧ s.symFifo.length ≠ P.symFifoDepth
          ∧ bodyDecChr P ch s = applyWalk (opcode (.decChr ch)) (walk s.nodes s.cfg s.cur s.depth ch) s) := by
  by_cases ha : s.decState = .aborted
  · exact .inl ⟨ha, if_pos ha⟩
  · by_cases hf : s.symFifo.length = P.symFifoDepth
    · exact .inr (.inl ⟨ha, hf, (if_neg ha).trans (if_pos hf)⟩)
    · exact .inr (.inr ⟨ha, hf, (if_neg ha).trans (if_neg hf)⟩)

/-- Everything ENC_SYM's body can do. -/
theorem bodyEncSym_cases (P : Params) (b : Byte) (s : State) :
    (s.encState = .aborted ∧ bodyEncSym P b s = s)
      ∨ (s.encState ≠ .aborted ∧ readCodeByte s.code b = none
          ∧ bodyEncSym P b s = abortEnc (raise .unmapped (opcode (.encSym b)) b 0 s))
      ∨ (s.encState ≠ .aborted ∧ ∃ c, readCodeByte s.code b = some c
          ∧ ((P.encFifoDepth < s.encFifo.length + c.length
              ∧ bodyEncSym P b s = raise .rejFull (opcode (.encSym b)) (BitVec.ofNat 8 s.encFifo.length)
                  (BitVec.ofNat 8 c.length) s)
            ∨ (s.encFifo.length + c.length ≤ P.encFifoDepth ∧ bodyEncSym P b s = pushCode c s))) := by
  by_cases ha : s.encState = .aborted
  · exact .inl ⟨ha, if_pos ha⟩
  · cases hc : readCodeByte s.code b with
    | none => exact .inr (.inl ⟨ha, rfl, by simp [bodyEncSym, ha, hc]⟩)
    | some c =>
      refine .inr (.inr ⟨ha, c, rfl, ?_⟩)
      by_cases hf : P.encFifoDepth < s.encFifo.length + c.length
      · exact .inl ⟨hf, by simp [bodyEncSym, ha, hc, hf]⟩
      · exact .inr ⟨Nat.not_lt.1 hf, by simp [bodyEncSym, ha, hc, hf]⟩

/-- The errors a walk raises: the three that abort a decode call from DEC_CHR (60_exceptions.md R131). -/
theorem walk_abort {nodes : Mem Node} {cfg : BitVec 5} {cur : NodeIdx} {depth : BitVec 8} {ch : Byte} {e : Err}
    {d1 d2 : Byte} (h : walk nodes cfg cur depth ch = .abort e d1 d2) :
    e = .badChar ∨ e = .badPath ∨ e = .treeMalformed := by
  simp only [walk, walkChild] at h
  split at h
  · cases h; simp
  · split at h
    · cases h; simp
    · split at h <;> cases h; simp
    · split at h
      · cases h; simp
      · cases h
      · split at h <;> cases h; simp

/-- The ENGINE's turn writes the error record, the table and `busy` at most. -/
theorem engineTurn_frame (s : State) : ∃ err info code tv,
    engineTurn s = { s with err := err, errInfo := info, code := code, tableValid := tv, busy := false } := by
  cases hb : s.busy
  · exact ⟨s.err, s.errInfo, s.code, s.tableValid, by rw [engineTurn_idle hb]; cases s; simp_all⟩
  · rw [engineTurn_busy hb]
    rcases engineStep_cases s with ⟨t, _, h⟩ | ⟨i, b, _, h⟩ <;> rw [h] <;> exact ⟨_, _, _, _, rfl⟩

/-- The command the next step issues, when its word decodes. -/
theorem nextIssues_command {s : State} {w : Word} {i : Instr} {rest : List Event}
    (h : s.agenda = .host (.write .cmd w) :: rest) (hd : decode w = .ok i) (j : Instr) : nextIssues s j ↔ i = j := by
  simp [nextIssues, nextCommand, h, hd]

end Sys2Proof.Machine
end

