-- ==== Sys2Proof/Laws/HostReference.lean ====
section
/-! SUPPORT. The host's side of LoadTree (45_host_reference.md R120): what its poll reads, and what its last line says of the
state. -/

namespace Sys2Proof.Machine

/-- STATUS bit 4 is BUSY. -/
theorem status_busy (P : Params) (s : State) : (status P s).getLsbD 4 = s.busy := by
  simp only [status, statusByte, BitVec.getLsbD_append]; simp

/-- STATUS bit 5 is TABLE_VALID. -/
theorem status_tableValid (P : Params) (s : State) : (status P s).getLsbD 5 = s.tableValid := by
  simp only [status, statusByte, BitVec.getLsbD_append]; simp

/-- STATUS does not depend on what is still to come or on what was read. -/
theorem status_schedule (P : Params) (s : State) (agenda : List Event) (reads : List Word) :
    status P { s with agenda := agenda, reads := reads } = status P s := rfl

/-- The condition of LoadTree's last line, on the words read, is the condition on the state. -/
theorem loadTreeRequire_state (P : Params) (s : State) :
    loadTreeRequire (status P s) (readValue P .err s) = (s.tableValid && !s.err.getLsbD 5) := by
  rw [loadTreeRequire, status_tableValid]
  simp only [readValue, BitVec.getLsbD_append]; simp

/-- The ENGINE's turn leaves nothing pending. -/
theorem engineTurn_busy_false (s : State) : (engineTurn s).busy = false := by
  obtain ⟨_, _, _, _, h⟩ := engineTurn_frame s
  rw [h]

/-- The ENGINE's turn does not look at the schedule. -/
theorem engineTurn_schedule (s : State) (agenda : List Event) (reads : List Word) :
    engineTurn { s with agenda := agenda, reads := reads } = { engineTurn s with agenda := agenda, reads := reads } := by
  by_cases hb : s.busy = true
  · rw [engineTurn_busy (s := { s with agenda := agenda, reads := reads }) hb, engineTurn_busy hb]
    unfold engineStep
    cases genTable s.nodes s.root <;> rfl
  · have hb : s.busy = false := Bool.eq_false_iff.2 hb
    rw [engineTurn_idle (s := { s with agenda := agenda, reads := reads }) hb, engineTurn_idle hb]

/-- One more step of a run. -/
theorem run_succ {s t : State} (n : Nat) (h : step s = .next t) :
    Host.Core.run core (n + 1) s = Host.Core.run core n t := by
  simp only [Host.Core.run, show core.step s = .next t from h]

/-- The poll of LoadTree: each read before the ENGINE's turn returns STATUS with BUSY = 1, the last one STATUS with BUSY = 0,
and the poll does nothing else to the block. -/
theorem pollEvents_run (waits : Nat) (s : State) (rest : List Event) (ha : s.agenda = pollEvents waits ++ rest) :
    Host.Core.run core (waits + 2) s = .next { engineTurn s with
      agenda := rest
      reads := s.reads ++ List.replicate waits (status Config.params s) ++ [status Config.params (engineTurn s)] } := by
  induction waits generalizing s with
  | zero =>
    have ha : s.agenda = .engine :: .host (.read .status) :: rest := ha
    have h1 : step s = .next { engineTurn s with agenda := .host (.read .status) :: rest, reads := s.reads } := by
      rw [step_cons ha, ← engineTurn_schedule]; rfl
    rw [run_succ 1 h1, run_succ 0 (t := { engineTurn s with
      agenda := rest, reads := s.reads ++ [status Config.params (engineTurn s)] }) (by rfl), List.replicate_zero,
      List.append_nil]
    rfl
  | succ n ih =>
    have ha : s.agenda = .host (.read .status) :: (pollEvents n ++ rest) := ha
    have h1 : step s = .next { s with
        agenda := pollEvents n ++ rest, reads := s.reads ++ [status Config.params s] } := by rw [step_cons ha]; rfl
    rw [run_succ (n + 2) h1, ih _ rfl, engineTurn_schedule]
    simp only [List.replicate_succ, List.append_assoc, List.cons_append, List.nil_append]
    rfl

/-- What the host makes of those values and of the ERR it reads next: loaded exactly when the table is valid and no
malformed tree was reported. -/
theorem loadTreePolled_values (P : Params) (waits : Nat) (s t : State) (hs : s.busy = true) (ht : t.busy = false) :
    loadTreePolled (List.replicate waits (status P s) ++ [status P t] ++ [readValue P .err t])
      = if t.tableValid = true ∧ t.err.getLsbD 5 = false then .loaded else .failed := by
  induction waits with
  | zero =>
    show loadTreePolled [status P t, readValue P .err t] = _
    rw [loadTreePolled, if_neg (by rw [status_busy, ht]; exact Bool.false_ne_true), loadTreeRequire_state]
    cases t.tableValid <;> cases t.err.getLsbD 5 <;> rfl
  | succ n ih =>
    rw [← ih]
    have hp : ∀ w rest, loadTreePolled (status P s :: w :: rest) = loadTreePolled (w :: rest) := fun w rest => by
      rw [loadTreePolled, if_pos ((status_busy P s).trans hs)]
    cases n with
    | zero => exact hp _ _
    | succ n => exact hp _ _

end Sys2Proof.Machine
end

