-- ==== Sys2Proof/Laws/PerInstr.lean ====
section
/-! SUPPORT. The statements made per constructor of Instr. -/

namespace Sys2Proof.Laws

/-- The word of a command holds its opcode in bits [31:28] and its operands in bits [27:0] (30_encoding.md R71). -/
def EncodedFields.Statement (i : Instr) : Prop :=
  wordOpcode (encode i) = opcode i ∧ (encode i).extractLsb' 0 28 = operandBits i

theorem encodedFields_all (i : Instr) : EncodedFields.Statement i :=
  ⟨BitVec.extractLsb'_append_eq_left, BitVec.extractLsb'_append_eq_right⟩

theorem EncodedFields.nop : EncodedFields.Statement .nop := encodedFields_all _

theorem EncodedFields.clear : EncodedFields.Statement .clear := encodedFields_all _

theorem EncodedFields.clrErr : EncodedFields.Statement .clrErr := encodedFields_all _

theorem EncodedFields.setCfg (flags : BitVec 5) : EncodedFields.Statement (.setCfg flags) := encodedFields_all _

theorem EncodedFields.nodeWr (idx : NodeIdx) (node : Node) : EncodedFields.Statement (.nodeWr idx node) := encodedFields_all _

theorem EncodedFields.setRoot (idx : NodeIdx) : EncodedFields.Statement (.setRoot idx) := encodedFields_all _

theorem EncodedFields.nodeRd (idx : NodeIdx) : EncodedFields.Statement (.nodeRd idx) := encodedFields_all _

theorem EncodedFields.genTable : EncodedFields.Statement .genTable := encodedFields_all _

theorem EncodedFields.codeRd (sym : Sym) (part : BitVec 3) : EncodedFields.Statement (.codeRd sym part) := encodedFields_all _

theorem EncodedFields.decStart : EncodedFields.Statement .decStart := encodedFields_all _

theorem EncodedFields.decChr (ch : Byte) : EncodedFields.Statement (.decChr ch) := encodedFields_all _

theorem EncodedFields.decEnd : EncodedFields.Statement .decEnd := encodedFields_all _

theorem EncodedFields.encStart : EncodedFields.Statement .encStart := encodedFields_all _

theorem EncodedFields.encSym (b : Byte) : EncodedFields.Statement (.encSym b) := encodedFields_all _

theorem EncodedFields.encEnd : EncodedFields.Statement .encEnd := encodedFields_all _

end Sys2Proof.Laws
end

