-- ==== Sys2Proof/Tests/Slice0.lean ====
section
/-! SUPPORT. The model's own tests: the well-formedness smoke test, words written out from the encoding tables, one-step
results taken from the vectors of 95_test_vectors.md (cited by their numbers), and for each statement with hypotheses a
state and operands that meet them. -/

namespace Sys2Proof.Tests

open Sys2Proof.Machine

/-! ### Well-formedness (30_encoding.md R72: PART values 5 to 7 are reserved) -/

theorem test_wellFormed_refuses_part_five : (Instr.codeRd 0x61 5).wellFormed = false := by decide

theorem test_wellFormed_refuses_part_seven : (Instr.codeRd 0x61 7).wellFormed = false := by decide

theorem test_wellFormed_accepts_part_four : (Instr.codeRd 0x7F 4).wellFormed = true := by decide

/-! ### Decoding: one word of each command, bit by bit from 30_encoding.md R72 and R74 -/

theorem test_decode_nop : decode 0b0000_0000000000000000000000000000#32 = .ok .nop := by decide
theorem test_decode_clear : decode 0b0001_0000000000000000000000000000#32 = .ok .clear := by decide
theorem test_decode_clrErr : decode 0b0010_0000000000000000000000000000#32 = .ok .clrErr := by decide
theorem test_decode_setCfg : decode 0b0011_00000000000000000000000_01101#32 = .ok (.setCfg 0b01101#5) := by decide
theorem test_decode_nodeWr_leaf :
    decode 0b0100_00000011_000_1_000000000_1100001#32 = .ok (.nodeWr 3 (.leaf 0x61)) := by decide
theorem test_decode_nodeWr_internal :
    decode 0b0100_00000010_000_0_00000001_00000000#32 = .ok (.nodeWr 2 (.internal 0 1)) := by decide
theorem test_decode_setRoot : decode 0b0101_00000000000000000000_10000001#32 = .ok (.setRoot 0x81) := by decide
theorem test_decode_nodeRd : decode 0b0110_00000000000000000000_11111111#32 = .ok (.nodeRd 0xFF) := by decide
theorem test_decode_genTable : decode 0b0111_0000000000000000000000000000#32 = .ok .genTable := by decide
theorem test_decode_codeRd : decode 0b1000_00000000000000000_010_0_1100010#32 = .ok (.codeRd 0x62 2) := by decide
theorem test_decode_decStart : decode 0b1001_0000000000000000000000000000#32 = .ok .decStart := by decide
theorem test_decode_decChr : decode 0b1010_00000000000000000000_00110000#32 = .ok (.decChr 0x30) := by decide
theorem test_decode_decEnd : decode 0b1011_0000000000000000000000000000#32 = .ok .decEnd := by decide
theorem test_decode_encStart : decode 0b1100_0000000000000000000000000000#32 = .ok .encStart := by decide
theorem test_decode_encSym : decode 0b1101_00000000000000000000_11100001#32 = .ok (.encSym 0xE1) := by decide
theorem test_decode_encEnd : decode 0b1110_0000000000000000000000000000#32 = .ok .encEnd := by decide
/-- V4, V20 to V22, V46: the reserved opcode and the reserved bits of formats W and P. -/
theorem test_decode_refuses : decode 0xFFFFFFFF#32 = .error .badOpcode ∧ decode 0x40FF0301#32 = .error .badOperand
    ∧ decode 0x40020061#32 = .error .badOperand ∧ decode 0x40010080#32 = .error .badOperand
    ∧ decode 0x800000E1#32 = .error .badOperand := by decide
/-- A row's word with its operand bits 0 is read and run as the next step. -/
theorem test_decodeTableWord : decodeTableWord 32 0x70000000 = some .genTable := by decide
theorem test_withFetchWord : nextCommand (State.reset.withFetchWord 32 0x90000000) = some 0x90000000#32 := by decide

/-! ### The start states of 95_test_vectors.md section 2 -/

/-- S1: the tree of "abb" and its table. -/
def s1 : State := { State.reset with
  nodes := [(0, .leaf 0x61), (1, .leaf 0x62), (2, .internal 0 1)], root := 2, cur := 2
  code := [(0x61, [false]), (0x62, [true])], tableValid := true }

/-- S1W: S1 with a decode call open. -/
def s1w : State := { s1 with decState := .walk }

/-- S1E: S1 with an encode call open. -/
def s1e : State := { s1 with encState := .active }

/-- S1B: S1 with a GEN_TABLE pending. -/
def s1b : State := { s1 with busy := true, tableValid := false, code := [] }

/-- S2W1: the tree of "abcc", a decode call at depth 1. -/
def s2w1 : State := { State.reset with
  nodes := [(0, .leaf 0x61), (1, .leaf 0x62), (2, .leaf 0x63), (3, .internal 0 1), (4, .internal 2 3)]
  root := 4, cur := 3, depth := 1, decState := .walk, decNchr := 1
  code := [(0x61, [true, false]), (0x62, [true, true]), (0x63, [false])], tableValid := true }

/-- The state a command leads to. -/
def after (i : Instr) (s : State) : State :=
  match exec i s with
  | .next t => t
  | _ => s

/-- The ERR_INFO word. -/
def info (s : State) : Word := errInfoWord s.errInfo

/-! ### One step of each command -/

/-- V1. -/
theorem test_nop : after .nop State.reset = State.reset := by decide
/-- V10: NOP while BUSY. -/
theorem test_nop_busy : after .nop s1b = s1b := by decide
/-- V6: CLEAR cancels a pending GEN_TABLE. -/
theorem test_clear : after .clear s1b = State.reset := by decide
/-- V111: CLEAR keeps the errors. -/
theorem test_clear_keeps_errors : (after .clear { s1w with err := 1 }).err = 1 := by decide
/-- V8. -/
theorem test_clrErr : after .clrErr (raise .badOpcode 0xF 0 0 s1) = s1 := by decide
/-- V11. -/
theorem test_setCfg : (after (.setCfg 0x1F) State.reset).cfg = 0x1F#5 := by decide
/-- V14: rejected while BUSY. -/
theorem test_setCfg_busy : info (after (.setCfg 0) s1b) = 0x83000003#32 ∧ (after (.setCfg 0) s1b).cfg = 3#5 := by decide
/-- V19: written at index 255 and read back. -/
theorem test_nodeWr : (after (.nodeRd 255) (after (.nodeWr 255 (.internal 1 3)) State.reset)).rdata = 0x80000301#32 := by
  decide
/-- V24: rejected during a decode call. -/
theorem test_nodeWr_walk : info (after (.nodeWr 0 (.leaf 0x63)) s1w) = 0x84006104#32 := by decide
/-- V26: the same root still clears the table. -/
theorem test_setRoot : (after (.setRoot 2) s1).tableValid = false ∧ (after (.setRoot 2) s1).code = [] := by decide
/-- V25: rejected during an encode call. -/
theorem test_setRoot_active : info (after (.setRoot 1) s1e) = 0x85006404#32 := by decide
/-- V31: allowed during a decode call. -/
theorem test_nodeRd : (after (.nodeRd 2) s1w).rdata = 0x80000100#32 := by decide
/-- V30. -/
theorem test_nodeRd_busy : info (after (.nodeRd 2) s1b) = 0x86000003#32 := by decide
/-- V32, V42: GEN_TABLE is pending and the table cleared, a decode call open or not. -/
theorem test_genTable : after .genTable s1 = s1b ∧ (after .genTable s1w).busy = true := by decide
/-- V41. -/
theorem test_genTable_active : info (after .genTable s1e) = 0x87006404#32 := by decide
/-- V33. -/
theorem test_engine : engineTurn s1b = s1 := by decide
/-- V38: the second leaf of a symbol. -/
theorem test_engine_duplicate :
    info (engineTurn { s1b with nodes := [(0, .leaf 0x61), (1, .leaf 0x61), (2, .internal 0 1)] }) = 0x87030106#32 := by
  decide
/-- V43: length, first 32 bits, next 32 bits. -/
theorem test_codeRd : (after (.codeRd 0x62 0) s1).rdata = 0x80000001#32 ∧ (after (.codeRd 0x62 1) s1).rdata = 1#32
    ∧ (after (.codeRd 0x62 2) s1).rdata = 0#32 := by decide
/-- V49: a code of 127 ones fills part 4 up to bit 30. -/
theorem test_codeRd_longest : codeWord (some (List.replicate 127 true)) 0 = 0x8000007F#32
    ∧ codeWord (some (List.replicate 127 true)) 4 = 0x7FFFFFFF#32 := by decide +kernel
/-- V75: a fresh call from ABORTED. -/
theorem test_decStart : after .decStart { s1w with decState := .aborted, symFifo := [], decNchr := 4 } = s1w := by decide
/-- V74. -/
theorem test_decStart_walk : info (after .decStart s1w) = 0x89006104#32 := by decide
/-- V53: from depth 1 to a leaf and back to the root. -/
theorem test_decChr : bodyDecChr Params.reference 0x30 s2w1
    = { s2w1 with symFifo := [0x61], cur := 4, depth := 0, decNchr := 2, decNsym := 1 } := by decide
/-- V57: position and counters kept. -/
theorem test_decChr_badChar : info (bodyDecChr Params.reference 0x78 s2w1) = 0x8A017807#32
    ∧ (bodyDecChr Params.reference 0x78 s2w1).cur = 3 := by decide
/-- V77. -/
theorem test_decEnd : info (after .decEnd s2w1) = 0x8B010309#32 ∧ (after .decEnd s2w1).cur = 4 := by decide
/-- V80: the FIFO kept. -/
theorem test_decEnd_keeps : (after .decEnd { s1w with symFifo := [0x61] }).symFifo = [0x61] := by decide
/-- V97: a fresh call from ABORTED. -/
theorem test_encStart : after .encStart { s1e with encState := .aborted, encNsym := 3 } = s1e := by decide
/-- V96. -/
theorem test_encStart_active : info (after .encStart s1e) = 0x8C006404#32 := by decide
/-- V85: first bit first. -/
theorem test_encSym : (bodyEncSym Params.reference 0x61 { s2w1 with decState := .idle, encState := .active }).encFifo
    = [true, false] := by decide
/-- V89: a byte of 128 or more is not narrowed. -/
theorem test_encSym_unmapped : info (bodyEncSym Params.reference 0xE1 s1e) = 0x8D00E10A#32
    ∧ (bodyEncSym Params.reference 0xE1 s1e).encState = .aborted := by decide
/-- V98. -/
theorem test_encEnd : after .encEnd { s1e with encFifo := [false], encNsym := 1, encNbits := 1 }
    = { s1 with encFifo := [false], encNsym := 1, encNbits := 1 } := by decide
/-- V100. -/
theorem test_encEnd_idle : info (after .encEnd s1) = 0x8E006004#32 := by decide
/-- V102: ID, CAPS and STATUS after reset. -/
theorem test_reads : readValue Params.reference .id State.reset = 0x48554631#32
    ∧ readValue Params.reference .caps State.reset = 0xFF7F8010#32
    ∧ readValue Params.reference .status State.reset = 0x00000140#32 := by decide
/-- V64: CUR and the depth of the walker in one word. -/
theorem test_read_cur : readValue Params.reference .cur { State.reset with depth := 126 } = 0x00007E00#32 := by decide
/-- W1: the host's image of "abb". -/
theorem test_buildTree : buildTree (frequencyTable [0x61, 0x62, 0x62])
    = { entries := [.leaf 0x61, .leaf 0x62, .internal 0 1], root := 2 } := by decide

/-- R128: an empty table issues CLEAR alone, and so does a corpus of bytes of 128 or more. -/
theorem test_loadTree_empty : loadTreeEvents 3 [] = commandEvents [.clear]
    ∧ loadTreeEvents 0 [0x80, 0xFF] = commandEvents [.clear] ∧ loadTreeOutcome [] [] = .noTree := by decide
/-- P1, steps 6 to 8: STATUS 0x150 while BUSY, then 0x160, with ERR 0. -/
theorem test_loadTree_loaded :
    loadTreeOutcome [0x61, 0x62, 0x62] [0x00000150#32, 0x00000160#32, 0#32] = .loaded := by decide
/-- V34: STATUS and ERR after the ENGINE step failed. -/
theorem test_loadTree_failed : loadTreeOutcome [0x61] [0x000001C0#32, 0x00000020#32] = .failed
    ∧ loadTreeOutcome [0x61] [0x00000150#32, 0x00000150#32] = .unfinished := by decide
/-- W1: 24 bits, 3 bits, 87.5. -/
theorem test_report : report (.ok [false, true, true]) 3 3
    = some { originalBits := 24, encodedBits := 3, ratio := some (175 / 2) } := by
  simp [report, reportFigures]; norm_num
/-- R124: no ratio for no symbols, and no report of a call that failed with UNMAPPED. -/
theorem test_report_none : report (.ok []) 0 0 = some { originalBits := 0, encodedBits := 0, ratio := none }
    ∧ report (encodeCall s1.code [0x61, 0x63]) 1 1 = none := by decide

/-! ### Helpers of the witnesses -/

/-- A state whose next step issues a command. -/
def issuing (i : Instr) (s : State) : State := withCommand (encode i) s

theorem issuing_issues {i : Instr} (h : decode (encode i) = .ok i) (s : State) : nextIssues (issuing i s) i :=
  ⟨encode i, rfl, h⟩

theorem issuing_step {i : Instr} (h : decode (encode i) = .ok i) (s : State) :
    step (issuing i s) = .next (issue i (bodyOf i) s) := step_of_case (.command (encode i) i s.agenda rfl h)

theorem issuing_not {i j : Instr} (h : decode (encode i) = .ok i) (hne : i ≠ j) (s : State) :
    ¬ nextIssues (issuing i s) j := by rw [nextIssues_command rfl h]; exact hne

theorem issuing_not_reset (i : Instr) (s : State) : ¬ nextIsReset (issuing i s) := by
  simp [nextIsReset, issuing, withCommand]

theorem reset_step (s : State) (rest : List Event) :
    step { s with agenda := .reset :: rest } = .next (resetDevice { s with agenda := rest }) := rfl

theorem read_step (r : Reg) (s : State) (rest : List Event) :
    step { s with agenda := .host (.read r) :: rest } = .next (hostRead Config.params r { s with agenda := rest }) := rfl

theorem empty_not_full : ([] : List Sym).length ≠ Config.params.symFifoDepth := by
  have := symFifoDepth_pos
  simp only [List.length_nil]; omega

/-- A symbol FIFO that is full. -/
def fullSyms : List Sym := List.replicate Config.params.symFifoDepth 0x61

/-! ### Witnesses: reset and the state -/

theorem test_witness_ResetRestoresEveryComponent : ∃ (s : State) (rest : List Event), s.agenda = .reset :: rest :=
  ⟨{ s1w with agenda := [.reset, .engine] }, _, rfl⟩

theorem test_witness_DecoderStateTransitions :
    (∃ s t, step s = .next t ∧ nextIsReset s ∧ t.decState ≠ s.decState)
    ∧ (∃ s t, step s = .next t ∧ nextIssues s .clear ∧ t.decState ≠ s.decState)
    ∧ (∃ s t, step s = .next t ∧ nextIssues s .decStart ∧ s.busy = false ∧ s.decState = .idle)
    ∧ (∃ s t, step s = .next t ∧ nextIssues s .decStart ∧ s.busy = false ∧ s.decState = .aborted)
    ∧ (∃ s t ch, step s = .next t ∧ nextIssues s (.decChr ch) ∧ s.busy = false ∧ s.decState = .walk
        ∧ s.symFifo.length ≠ Config.params.symFifoDepth
        ∧ ∃ e d1 d2, walk s.nodes s.cfg s.cur s.depth ch = .abort e d1 d2)
    ∧ (∃ s t ch, step s = .next t ∧ nextIssues s (.decChr ch) ∧ s.busy = false ∧ s.decState = .aborted)
    ∧ (∃ s t, step s = .next t ∧ nextIssues s .decEnd ∧ s.busy = false ∧ s.decState = .walk)
    ∧ (∃ s t, step s = .next t ∧ nextIssues s .decEnd ∧ s.busy = false ∧ s.decState = .aborted) :=
  ⟨⟨{ s1w with agenda := [.reset] }, _, reset_step _ _, rfl, by decide⟩,
   ⟨issuing .clear s1w, _, issuing_step rfl _, issuing_issues rfl _, by decide⟩,
   ⟨issuing .decStart s1, _, issuing_step rfl _, issuing_issues rfl _, rfl, rfl⟩,
   ⟨issuing .decStart { s1w with decState := .aborted }, _, issuing_step rfl _, issuing_issues rfl _, rfl, rfl⟩,
   ⟨issuing (.decChr 0x32) s1w, _, _, issuing_step rfl _, issuing_issues rfl _, rfl, rfl, empty_not_full,
     .badChar, 0x32, 0, by decide⟩,
   ⟨issuing (.decChr 0x30) { s1w with decState := .aborted }, _, _, issuing_step rfl _, issuing_issues rfl _, rfl, rfl⟩,
   ⟨issuing .decEnd s1w, _, issuing_step rfl _, issuing_issues rfl _, rfl, rfl⟩,
   ⟨issuing .decEnd { s1w with decState := .aborted }, _, issuing_step rfl _, issuing_issues rfl _, rfl, rfl⟩⟩

theorem test_witness_EncoderStateTransitions :
    (∃ s t, step s = .next t ∧ nextIsReset s ∧ t.encState ≠ s.encState)
    ∧ (∃ s t, step s = .next t ∧ nextIssues s .clear ∧ t.encState ≠ s.encState)
    ∧ (∃ s t, step s = .next t ∧ nextIssues s .encStart ∧ s.busy = false ∧ s.encState = .idle)
    ∧ (∃ s t, step s = .next t ∧ nextIssues s .encStart ∧ s.busy = false ∧ s.encState = .aborted)
    ∧ (∃ s t b, step s = .next t ∧ nextIssues s (.encSym b) ∧ s.busy = false ∧ s.encState = .active
        ∧ readCodeByte s.code b = none)
    ∧ (∃ s t b, step s = .next t ∧ nextIssues s (.encSym b) ∧ s.busy = false ∧ s.encState = .aborted)
    ∧ (∃ s t, step s = .next t ∧ nextIssues s .encEnd ∧ s.busy = false ∧ s.encState = .active)
    ∧ (∃ s t, step s = .next t ∧ nextIssues s .encEnd ∧ s.busy = false ∧ s.encState = .aborted) :=
  ⟨⟨{ s1e with agenda := [.reset] }, _, reset_step _ _, rfl, by decide⟩,
   ⟨issuing .clear s1e, _, issuing_step rfl _, issuing_issues rfl _, by decide⟩,
   ⟨issuing .encStart s1, _, issuing_step rfl _, issuing_issues rfl _, rfl, rfl⟩,
   ⟨issuing .encStart { s1e with encState := .aborted }, _, issuing_step rfl _, issuing_issues rfl _, rfl, rfl⟩,
   ⟨issuing (.encSym 0xFF) s1e, _, _, issuing_step rfl _, issuing_issues rfl _, rfl, rfl, by decide⟩,
   ⟨issuing (.encSym 0xFF) { s1e with encState := .aborted }, _, _, issuing_step rfl _, issuing_issues rfl _, rfl, rfl⟩,
   ⟨issuing .encEnd s1e, _, issuing_step rfl _, issuing_issues rfl _, rfl, rfl⟩,
   ⟨issuing .encEnd { s1e with encState := .aborted }, _, issuing_step rfl _, issuing_issues rfl _, rfl, rfl⟩⟩

theorem test_witness_ErrorRecordStaysUntilCleared :
    ∃ s t, step s = .next t ∧ ¬ nextIssues s .clrErr ∧ ¬ nextIsReset s ∧ s.err.getLsbD 0 = true ∧ s.errInfo.v = true :=
  ⟨issuing .clear (raise .badOpcode 0xF 0 0 s1), _, issuing_step rfl _, issuing_not rfl (by decide) _,
   issuing_not_reset _ _, by decide, rfl⟩

theorem test_witness_RegistersWrittenOnlyByTheirCommands :
    (∃ s t, step s = .next t ∧ ¬ nextIsReset s ∧ t.cfg ≠ s.cfg)
    ∧ (∃ s t, step s = .next t ∧ ¬ nextIsReset s ∧ ¬ nextIssues s .clear ∧ t.root ≠ s.root)
    ∧ (∃ s t, step s = .next t ∧ ¬ nextIsReset s ∧ ¬ nextIssues s .clear ∧ t.rdata ≠ s.rdata) :=
  ⟨⟨issuing (.setCfg 0) s1, _, issuing_step rfl _, issuing_not_reset _ _, by decide⟩,
   ⟨issuing (.setRoot 0xFF) s1, _, issuing_step rfl _, issuing_not_reset _ _, issuing_not rfl (by decide) _, by decide⟩,
   ⟨issuing (.codeRd 0x61 0) s1, _, issuing_step rfl _, issuing_not_reset _ _, issuing_not rfl (by decide) _, by decide⟩⟩

theorem test_witness_FifosLoseNothing :
    (∃ s t, step s = .next t ∧ ¬ nextIsReset s ∧ ¬ nextIssues s .clear ∧ t.symFifo = s.symFifo.tail ∧ s.symFifo ≠ [])
    ∧ (∃ s t, step s = .next t ∧ ¬ nextIsReset s ∧ ¬ nextIssues s .clear ∧ nextIssues s .decStart ∧ s.symFifo ≠ [])
    ∧ (∃ s t, step s = .next t ∧ ¬ nextIsReset s ∧ ¬ nextIssues s .clear ∧ nextIssues s .encStart ∧ s.encFifo ≠ []) :=
  ⟨⟨{ s1 with symFifo := [0x61], agenda := [.host (.read .symOut)] }, _, read_step .symOut { s1 with symFifo := [0x61] } [], by simp [nextIsReset],
     by simp [nextIssues, nextCommand], by rfl, by decide⟩,
   ⟨issuing .decStart { s1 with symFifo := [0x61] }, _, issuing_step rfl _, issuing_not_reset _ _,
     issuing_not rfl (by decide) _, issuing_issues rfl _, by decide⟩,
   ⟨issuing .encStart { s1 with encFifo := [true] }, _, issuing_step rfl _, issuing_not_reset _ _,
     issuing_not rfl (by decide) _, issuing_issues rfl _, by decide⟩⟩

/-! ### Witnesses: encoding -/

theorem test_witness_DecodeOfEncodeIsTheCommand :
    ∃ i : Instr, i.wellFormed = true ∧ decode (encode i) = .ok i := ⟨.codeRd 0x7F 4, by decide, by decide⟩

theorem test_witness_AcceptedWordIsAnEncoding : ∃ (w : Word) (i : Instr), decode w = .ok i :=
  ⟨0x4FF0FFFF#32, .nodeWr 255 (.internal 255 255), by decide⟩

theorem test_witness_AcceptedWordsAreTheOpcodeMap :
    (∃ w, ∃ row ∈ opcodeMap, spells w row = true) ∧ (∃ w i, decode w = .ok i)
      ∧ (∃ w, decode w = .error .badOpcode) :=
  ⟨⟨0x8000047F#32, by decide⟩, ⟨0xE0000000#32, .encEnd, by decide⟩, ⟨0xF0000000#32, by decide⟩⟩

theorem test_witness_IllegalWordOnlyRaises :
    (∃ w : Word, (∀ row ∈ opcodeMap, spells w row = false) ∧ w.extractLsb' 28 4 = 0xF#4)
    ∧ (∃ w : Word, (∀ row ∈ opcodeMap, spells w row = false) ∧ w.extractLsb' 28 4 ≠ 0xF#4) :=
  ⟨⟨0xF0000000#32, by decide⟩, ⟨0x80000561#32, by decide⟩⟩

theorem test_witness_NodeWordFormat : ∃ s : State, s.busy = false ∧ s.encState = .active := ⟨s1e, by decide⟩

theorem test_witness_CodeWordFormat :
    (∃ (y : Sym) (p : BitVec 3) (s : State), p.toNat ≤ 4 ∧ s.busy = false ∧ y = 127 ∧ p = 4)
    ∧ (∃ c : Code, c.length ≤ 127 ∧ c.length = 127)
    ∧ (∃ (p : BitVec 3) (i : Nat), 1 ≤ p.toNat ∧ p.toNat ≤ 4 ∧ i < 32 ∧ p = 4 ∧ i = 31) :=
  ⟨⟨127, 4, s1, by decide⟩, ⟨List.replicate 127 true, by simp⟩, ⟨4, 31, by decide⟩⟩

/-! ### Witnesses: the pipeline and the error record -/

theorem test_witness_StepRunsTheDecodedCommand :
    ∃ (s : State) (w : Word) (rest : List Event) (i : Instr),
      s.agenda = .host (.write .cmd w) :: rest ∧ decode w = .ok i :=
  ⟨State.reset.withFetchWord 32 0x30000000, _, _, .setCfg 0, rfl, by decide⟩

theorem test_witness_BusyRejectsAllButThree :
    ∃ (i : Instr) (s : State), s.busy = true ∧ i ≠ .nop ∧ i ≠ .clear ∧ i ≠ .clrErr := ⟨.encEnd, s1b, by decide⟩

theorem test_witness_WrongStateRejectsByTheTable :
    (∃ s : State, s.busy = false ∧ ¬ (s.decState = .idle ∧ s.encState = .idle))
    ∧ (∃ s : State, s.busy = false ∧ s.encState ≠ .idle)
    ∧ (∃ s : State, s.busy = false ∧ s.decState = .walk)
    ∧ (∃ s : State, s.busy = false ∧ s.decState = .idle)
    ∧ (∃ s : State, s.busy = false ∧ s.encState = .active)
    ∧ (∃ s : State, s.busy = false ∧ s.encState = .idle) :=
  ⟨⟨s1w, by decide⟩, ⟨s1e, by decide⟩, ⟨s1w, by decide⟩, ⟨s1, by decide⟩, ⟨s1e, by decide⟩, ⟨s1, by decide⟩⟩

theorem test_witness_RaiseLatchesTheFirstError :
    (∃ k, k < 11 ∧ k = 10)
    ∧ (∃ s t w, step s = .next t ∧ s.errInfo.v = false ∧ t.errInfo.v = true ∧ nextCommand s = some w)
    ∧ (∃ s t, step s = .next t ∧ s.errInfo.v = false ∧ t.errInfo.v = true ∧ nextIsEngine s)
    ∧ (∃ s t r d rest, step s = .next t ∧ s.errInfo.v = false ∧ t.errInfo.v = true
        ∧ s.agenda = .host (.write r d) :: rest ∧ r ≠ .cmd) :=
  ⟨⟨10, by decide⟩,
   ⟨issuing .encEnd s1, _, _, issuing_step rfl _, rfl, by decide, rfl⟩,
   ⟨{ State.reset with busy := true }, _, step_nil rfl, rfl, by decide, rfl, .inl rfl⟩,
   ⟨{ s1 with agenda := [.host (.write .cfg 0)] }, _, .cfg, 0, [], rfl, rfl, by decide, rfl, by decide⟩⟩

/-! ### Witnesses: control, tree image -/

theorem test_witness_SetCfgWritesTheFlags : ∃ s : State, s.busy = false ∧ s.decState = .walk := ⟨s1w, by decide⟩

theorem test_witness_NodeWrWritesOneEntry :
    ∃ (idx j : NodeIdx) (s : State), MemoriesCanonical s ∧ s.busy = false ∧ s.decState = .idle ∧ s.encState = .idle
      ∧ j ≠ idx ∧ readNode s.nodes j ≠ none := ⟨255, 2, s1, ⟨by decide, by decide⟩, by decide⟩

theorem test_witness_SetRootNamesTheRoot :
    ∃ s : State, s.busy = false ∧ s.decState = .idle ∧ s.encState = .idle := ⟨s1, by decide⟩

theorem test_witness_NodeRdReadsTheEntry :
    ∃ s : State, s.busy = false ∧ readNode s.nodes 255 = none ∧ readNode s.nodes 0 = some (.leaf 0x61)
      ∧ readNode s.nodes 2 = some (.internal 0 1) := ⟨s1w, by decide⟩

theorem test_witness_TreeImageFixedDuringCalls :
    (∃ s t, step s = .next t ∧ s.decState ≠ .idle ∧ ¬ nextIssues s .clear ∧ ¬ nextIsReset s)
    ∧ (∃ s t, step s = .next t ∧ s.encState ≠ .idle ∧ ¬ nextIssues s .clear ∧ ¬ nextIsReset s)
    ∧ (∃ s t, step s = .next t ∧ s.busy = true ∧ ¬ nextIssues s .clear ∧ ¬ nextIsReset s) :=
  ⟨⟨issuing (.setRoot 0) s1w, _, issuing_step rfl _, by decide, issuing_not rfl (by decide) _, issuing_not_reset _ _⟩,
   ⟨issuing (.setRoot 0) s1e, _, issuing_step rfl _, by decide, issuing_not rfl (by decide) _, issuing_not_reset _ _⟩,
   ⟨issuing (.setRoot 0) s1b, _, issuing_step rfl _, by decide, issuing_not rfl (by decide) _, issuing_not_reset _ _⟩⟩

/-! ### Witnesses: the decoder -/

theorem test_witness_DirectionOfACharacter :
    (∃ (ch : Byte) (cfg : BitVec 5), ch ≠ 0x30#8 ∧ ch ≠ 0x31#8 ∧ cfg.getLsbD 0 = false)
    ∧ (∃ (ch : Byte) (cfg : BitVec 5), ch ≠ 0x30#8 ∧ ch ≠ 0x31#8 ∧ cfg.getLsbD 0 = true) :=
  ⟨⟨0x32, 0b11110, by decide⟩, ⟨0x2F, 1, by decide⟩⟩

theorem test_witness_DecStartOpensACall :
    (∃ s : State, s.busy = false ∧ s.decState ≠ .walk ∧ s.decState = .idle)
    ∧ (∃ s : State, s.busy = false ∧ s.decState ≠ .walk ∧ s.decState = .aborted) :=
  ⟨⟨s1, by decide⟩, ⟨{ s1 with decState := .aborted }, by decide⟩⟩

theorem test_witness_DecChrEmitsAtALeaf :
    ∃ (ch : Byte) (s : State) (d : Dir) (l r : NodeIdx) (y : Sym), s.busy = false ∧ s.decState = .walk
      ∧ s.symFifo.length ≠ Config.params.symFifoDepth ∧ dir ch s.cfg = some d
      ∧ readNode s.nodes s.cur = some (.internal l r)
      ∧ readNode s.nodes (if d = .left then l else r) = some (.leaf y) :=
  ⟨0x31, s1w, .right, 0, 1, 0x62, rfl, rfl, empty_not_full, by decide⟩

theorem test_witness_DecChrDescends :
    ∃ (ch : Byte) (s : State) (d : Dir) (l r l' r' : NodeIdx), s.busy = false ∧ s.decState = .walk
      ∧ s.symFifo.length ≠ Config.params.symFifoDepth ∧ dir ch s.cfg = some d
      ∧ readNode s.nodes s.cur = some (.internal l r)
      ∧ readNode s.nodes (if d = .left then l else r) = some (.internal l' r') ∧ s.depth.toNat < 126
      ∧ s.depth.toNat = 125 :=
  ⟨0x30, { State.reset with nodes := [(0, .internal 0 0)], decState := .walk, depth := 125 }, .left, 0, 0, 0, 0, rfl, rfl,
   empty_not_full, by decide⟩

theorem test_witness_DecChrEmitsAtALeafRoot :
    ∃ (ch : Byte) (s : State) (y : Sym), s.busy = false ∧ s.decState = .walk
      ∧ s.symFifo.length ≠ Config.params.symFifoDepth ∧ dir ch s.cfg = some .left
      ∧ readNode s.nodes s.cur = some (.leaf y) :=
  ⟨0x30, { s1w with cur := 0, root := 0 }, 0x61, rfl, rfl, empty_not_full, by decide⟩

theorem test_witness_DecChrAborts :
    (∃ (ch : Byte) (s : State), s.busy = false ∧ s.decState = .walk ∧ s.symFifo.length ≠ Config.params.symFifoDepth
      ∧ dir ch s.cfg = none)
    ∧ (∃ (ch : Byte) (s : State), s.busy = false ∧ s.decState = .walk
      ∧ s.symFifo.length ≠ Config.params.symFifoDepth ∧ dir ch s.cfg ≠ none ∧ readNode s.nodes s.cur = none)
    ∧ (∃ (ch : Byte) (s : State), s.busy = false ∧ s.decState = .walk
      ∧ s.symFifo.length ≠ Config.params.symFifoDepth ∧ dir ch s.cfg = some .right
      ∧ readNode s.nodes s.cur = some (.leaf 0x61))
    ∧ (∃ (ch : Byte) (s : State), s.busy = false ∧ s.decState = .walk
      ∧ s.symFifo.length ≠ Config.params.symFifoDepth ∧ dir ch s.cfg = some .right
      ∧ readNode s.nodes s.cur = some (.internal 0 7) ∧ readNode s.nodes 7 = none)
    ∧ (∃ (ch : Byte) (s : State), s.busy = false ∧ s.decState = .walk
      ∧ s.symFifo.length ≠ Config.params.symFifoDepth ∧ dir ch s.cfg = some .left
      ∧ readNode s.nodes s.cur = some (.internal 0 0) ∧ 126 ≤ s.depth.toNat ∧ s.depth.toNat = 126) :=
  ⟨⟨0x32, s1w, rfl, rfl, empty_not_full, by decide⟩,
   ⟨0x30, { s1w with cur := 9 }, rfl, rfl, empty_not_full, by decide⟩,
   ⟨0x31, { s1w with cur := 0 }, rfl, rfl, empty_not_full, by decide⟩,
   ⟨0x31, { s1w with nodes := [(2, .internal 0 7)] }, rfl, rfl, empty_not_full, by decide⟩,
   ⟨0x30, { State.reset with nodes := [(0, .internal 0 0)], decState := .walk, depth := 126 }, rfl, rfl,
     empty_not_full, by decide⟩⟩

theorem test_witness_DecChrFullOrIgnored :
    (∃ s : State, s.busy = false ∧ s.decState = .walk ∧ s.symFifo.length = Config.params.symFifoDepth)
    ∧ (∃ s : State, s.busy = false ∧ s.decState = .aborted) :=
  ⟨⟨{ s1w with symFifo := fullSyms }, rfl, rfl, List.length_replicate⟩, ⟨{ s1w with decState := .aborted }, by decide⟩⟩

theorem test_witness_DecEndClosesTheCall :
    (∃ s : State, s.busy = false ∧ s.decState ≠ .idle
      ∧ s.decState = .walk ∧ s.depth ≠ 0 ∧ s.cfg.getLsbD 1 = true)
    ∧ (∃ s : State, s.busy = false ∧ s.decState ≠ .idle ∧ s.decState = .aborted) :=
  ⟨⟨s2w1, by decide⟩, ⟨{ s1w with decState := .aborted }, by decide⟩⟩

theorem test_witness_DecodeCallReturnsItsSymbols :
    ∃ (s : State) (x : List Byte) (out : List Sym), s.busy = false ∧ s.decState ≠ .walk
      ∧ s.agenda = commandEvents (decodeCommands x) ∧ decodeCall s.nodes s.root s.cfg x = .ok out
      ∧ out.length < Config.params.symFifoDepth ∧ x = [] :=
  ⟨{ s1 with agenda := commandEvents (decodeCommands []) }, [], [], rfl, by decide, rfl, by decide, symFifoDepth_pos, rfl⟩

theorem test_witness_DecodeCallReportsItsError :
    (∃ (s : State) (x : List Byte) (e : Err) (d1 d2 : Byte) (k : Nat), s.busy = false ∧ s.decState ≠ .walk
      ∧ s.agenda = commandEvents (decodeCommands x) ∧ decodeCall s.nodes s.root s.cfg x = .err e d1 d2 k
      ∧ x.length ≤ Config.params.symFifoDepth ∧ e = .badChar)
    ∧ (∃ (s : State) (x : List Byte) (e : Err) (d1 d2 : Byte) (k : Nat), s.busy = false ∧ s.decState ≠ .walk
      ∧ s.agenda = commandEvents (decodeCommands x) ∧ decodeCall s.nodes s.root s.cfg x = .err e d1 d2 k
      ∧ x.length ≤ Config.params.symFifoDepth ∧ e = .truncated) :=
  ⟨⟨{ s1 with agenda := commandEvents (decodeCommands [0x32]) }, [0x32], .badChar, 0x32, 0, 0, rfl, by decide, rfl,
     by decide, symFifoDepth_pos, rfl⟩,
   ⟨{ s2w1 with decState := .idle, agenda := commandEvents (decodeCommands [0x31]) }, [0x31], .truncated, 3, 1, 1, rfl,
     by decide, rfl, by decide, symFifoDepth_pos, rfl⟩⟩

/-! ### Witnesses: the generator and the encoder -/

theorem test_witness_GenTableStartsTheEngine :
    ∃ s : State, s.busy = false ∧ s.encState = .idle ∧ s.decState = .walk := ⟨s1w, by decide⟩

theorem test_witness_EngineStepIsAllOrNothing :
    (∃ (s : State) (rest : List Event), s.agenda = .engine :: rest ∧ s.busy = true ∧ genTable s.nodes s.root = .ok s1.code)
    ∧ (∃ s : State, s.agenda = [] ∧ s.busy = true ∧ genTable s.nodes s.root = .fail 0 1)
    ∧ (∃ s : State, s.agenda = [] ∧ s.busy = false) :=
  ⟨⟨{ s1b with agenda := [.engine] }, [], by decide⟩, ⟨{ State.reset with busy := true }, by decide⟩,
   ⟨s1, by decide⟩⟩

theorem test_witness_GenerationSucceedsOnWellFormedImages : ∃ tbl, genTable s2w1.nodes s2w1.root = .ok tbl :=
  ⟨s2w1.code, by decide⟩

theorem test_witness_GeneratedCodesAreThePaths :
    (∃ (nodes : Mem Node) (root : NodeIdx) (tbl : Mem Code), genTable nodes root = .ok tbl
      ∧ readCode tbl 0x61 = some [true, false])
    ∧ (∃ (nodes : Mem Node) (root : NodeIdx) (tbl : Mem Code), genTable nodes root = .ok tbl
      ∧ readNode nodes root = some (.leaf 0x61) ∧ readCode tbl 0x61 = some [false]) :=
  ⟨⟨s2w1.nodes, 4, s2w1.code, by decide⟩, ⟨[(0, .leaf 0x61)], 0, [(0x61, [false])], by decide⟩⟩

theorem test_witness_GeneratedCodesArePrefixFree :
    ∃ (nodes : Mem Node) (root : NodeIdx) (tbl : Mem Code) (y z : Sym) (c d : Code), genTable nodes root = .ok tbl
      ∧ y ≠ z ∧ readCode tbl y = some c ∧ readCode tbl z = some d :=
  ⟨s2w1.nodes, 4, s2w1.code, 0x63, 0x62, [false], [true, true], by decide⟩

theorem test_witness_CodeRdReadsTheTable :
    (∃ (y : Sym) (p : BitVec 3) (s : State), p.toNat ≤ 4 ∧ s.busy = false ∧ readCode s.code y = none)
    ∧ (∃ (y : Sym) (p : BitVec 3) (s : State) (c : Code), p.toNat ≤ 4 ∧ s.busy = false ∧ readCode s.code y = some c
      ∧ p = 0)
    ∧ (∃ (y : Sym) (p : BitVec 3) (s : State) (c : Code) (i : Nat), p.toNat ≤ 4 ∧ s.busy = false
      ∧ readCode s.code y = some c ∧ p ≠ 0 ∧ p = 4 ∧ i < 32 ∧ i = 31) :=
  ⟨⟨0x7F, 4, s1, by decide⟩, ⟨0x61, 0, s1, [false], by decide⟩, ⟨0x61, 4, s1, [false], 31, by decide⟩⟩

theorem test_witness_EncStartOpensACall :
    (∃ s : State, s.busy = false ∧ s.encState ≠ .active ∧ s.encState = .idle)
    ∧ (∃ s : State, s.busy = false ∧ s.encState ≠ .active ∧ s.encState = .aborted) :=
  ⟨⟨s1, by decide⟩, ⟨{ s1e with encState := .aborted }, by decide⟩⟩

theorem test_witness_EncSymPushesTheWholeCode :
    ∃ (b : Byte) (c : Code) (s : State), s.busy = false ∧ s.encState = .active ∧ b.toNat < 128
      ∧ s.code.read b.toNat = some c ∧ s.encFifo.length + c.length ≤ Config.params.encFifoDepth
      ∧ s.encFifo.length + c.length = Config.params.encFifoDepth := by
  obtain ⟨n, hn⟩ : ∃ n, Config.params.encFifoDepth = n + 1 :=
    ⟨_, (Nat.sub_add_cancel (Nat.le_trans (by decide : 1 ≤ 127) encFifoDepth_ge)).symm⟩
  refine ⟨0x62, [true], { s1e with encFifo := List.replicate n false }, rfl, rfl, by decide, rfl, ?_, ?_⟩ <;> simp [hn]

theorem test_witness_EncSymUnmappedAborts :
    (∃ (b : Byte) (s : State), s.busy = false ∧ s.encState = .active ∧ 128 ≤ b.toNat ∧ b = 128)
    ∧ (∃ (b : Byte) (s : State), s.busy = false ∧ s.encState = .active ∧ s.code.read b.toNat = none ∧ b = 127) :=
  ⟨⟨128, s1e, by decide⟩, ⟨127, s1e, by decide⟩⟩

theorem test_witness_EncSymFullOrIgnored :
    (∃ (b : Byte) (s : State) (c : Code), s.busy = false ∧ s.encState = .active ∧ b.toNat < 128
      ∧ s.code.read b.toNat = some c ∧ Config.params.encFifoDepth < s.encFifo.length + c.length
      ∧ s.encFifo.length + c.length = Config.params.encFifoDepth + 1)
    ∧ (∃ s : State, s.busy = false ∧ s.encState = .aborted) :=
  ⟨⟨0x61, { s1e with encFifo := List.replicate Config.params.encFifoDepth false }, [false], rfl, rfl, by decide, rfl,
     by simp, by simp⟩,
   ⟨{ s1e with encState := .aborted }, by decide⟩⟩

theorem test_witness_EncEndClosesTheCall :
    (∃ s : State, s.busy = false ∧ s.encState ≠ .idle ∧ s.encState = .active)
    ∧ (∃ s : State, s.busy = false ∧ s.encState ≠ .idle ∧ s.encState = .aborted) :=
  ⟨⟨s1e, by decide⟩, ⟨{ s1e with encState := .aborted }, by decide⟩⟩

theorem test_witness_EncodeCallReturnsItsBits :
    ∃ (s : State) (x : List Byte) (bits : List Bool), s.busy = false ∧ s.encState ≠ .active
      ∧ s.agenda = commandEvents (encodeCommands x) ∧ encodeCall s.code x = .ok bits
      ∧ bits.length ≤ Config.params.encFifoDepth ∧ bits = [false, true, true] :=
  ⟨{ s1 with agenda := commandEvents (encodeCommands [0x61, 0x62, 0x62]) }, [0x61, 0x62, 0x62], [false, true, true], rfl,
   by decide, rfl, by decide, Nat.le_trans (by decide) encFifoDepth_ge, rfl⟩

theorem test_witness_DecodingUndoesEncoding :
    ∃ (nodes : Mem Node) (root : NodeIdx) (tbl : Mem Code) (ys : List Sym) (bits : List Bool),
      genTable nodes root = .ok tbl ∧ encodeCall tbl (ys.map fun y => y.setWidth 8) = .ok bits ∧ ys ≠ [] :=
  ⟨s1.nodes, 2, s1.code, [0x61, 0x62, 0x62], [false, true, true], by decide⟩

/-! ### Witnesses: the host port -/

theorem test_witness_PlainReadsReturnTheTable :
    ∃ (s : State) (r : Reg) (rest : List Event), FifosFit s ∧ r ≠ .symOut ∧ r ≠ .encOut
      ∧ s.agenda = .host (.read r) :: rest :=
  ⟨{ s1 with agenda := [.host (.read .status)] }, .status, [], ⟨Nat.zero_le _, Nat.zero_le _⟩, by decide⟩

theorem test_witness_PopsReturnTheOldestElement :
    (∃ (s : State) (rest : List Event), s.agenda = .host (.read .symOut) :: rest ∧ s.symFifo = [])
    ∧ (∃ (s : State) (rest : List Event) (y : Sym) (ys : List Sym), s.agenda = .host (.read .symOut) :: rest
        ∧ s.symFifo = y :: ys ∧ FifosFit s)
    ∧ (∃ (s : State) (rest : List Event), s.agenda = .host (.read .encOut) :: rest ∧ s.encFifo = [])
    ∧ (∃ (s : State) (rest : List Event) (b : Bool) (bs : List Bool), s.agenda = .host (.read .encOut) :: rest
        ∧ s.encFifo = b :: bs) :=
  ⟨⟨{ s1 with agenda := [.host (.read .symOut)] }, [], by decide⟩,
   ⟨{ s1 with agenda := [.host (.read .symOut)], symFifo := [0x7F] }, [], 0x7F, [], rfl, rfl,
     ⟨symFifoDepth_pos, Nat.zero_le _⟩⟩,
   ⟨{ s1 with agenda := [.host (.read .encOut)] }, [], by decide⟩,
   ⟨{ s1 with agenda := [.host (.read .encOut)], encFifo := [true, false] }, [], true, [false], by decide⟩⟩

theorem test_witness_WriteElsewhereRaisesBadAddr :
    ∃ (s : State) (r : Reg) (d : Word) (rest : List Event), r ≠ .cmd ∧ s.agenda = .host (.write r d) :: rest :=
  ⟨{ s1 with agenda := [.host (.write .encNbits 0xFFFFFFFF)] }, .encNbits, 0xFFFFFFFF, [], by decide⟩

theorem test_witness_BridgePassesAlignedWordsOnly :
    (∃ (base : Nat) (a : BusAccess) (k : Nat), k < 16 ∧ a.bytes = 4 ∧ a.addr = base + 4 * k ∧ k = 15)
    ∧ (∃ (base : Nat) (a : BusAccess), translateAccess base a = .error .outsideWindow ∧ a.addr = base + 64) :=
  ⟨⟨64, { addr := 124, bytes := 4, data := none }, 15, by decide⟩,
   ⟨64, { addr := 128, bytes := 4, data := some 0 }, by decide⟩⟩

/-! ### Witnesses: the host reference, the invariant, runs -/

theorem test_witness_BuiltTreeHasOneNodePerMerge :
    (∃ F : List (Sym × Nat), F ≠ [] ∧ F.length ≤ 128 ∧ F.length = 1)
    ∧ (∃ F : List (Sym × Nat), F ≠ [] ∧ F.length ≤ 128 ∧ F.length = 128) :=
  ⟨⟨[(0x61, 4)], by decide⟩,
   ⟨List.replicate 128 (0, 1), by simp, by rw [List.length_replicate], List.length_replicate⟩⟩

theorem test_witness_EveryStepKeepsTheInvariant : ∃ s t : State, Inv s ∧ step s = .next t ∧ s.decState = .walk :=
  ⟨{ State.reset with decState := .walk }, _,
   ⟨⟨rfl, rfl⟩, ⟨by decide, by decide, by decide, by decide⟩, ⟨by decide, by decide, by decide, by decide⟩,
    ⟨Nat.zero_le _, Nat.zero_le _⟩, ⟨by decide, by decide, fun h => absurd h (by decide)⟩⟩,
   step_nil rfl, rfl⟩

theorem test_witness_VoidCallsKeepNoOutput :
    (∃ s t : State, step s = .next t ∧ voidsDecodeCall s t) ∧ (∃ s t : State, step s = .next t ∧ voidsEncodeCall s t) :=
  ⟨⟨issuing .decEnd s2w1, _, issuing_step rfl _, by decide,
     .inr (.inl ⟨issuing_issues rfl _, ⟨.inl rfl, rfl⟩, by decide⟩)⟩,
   ⟨issuing .clear s1e, _, issuing_step rfl _, by decide, .inr (.inl (issuing_issues rfl _))⟩⟩

end Sys2Proof.Tests
end

/-! SUPPORT. The statements about the state (10_state.md): the interrupt level, CLEAR, and the two call states. The rules
of the next step by its event, and the one inversion of a step that both call states need, come first. -/

namespace Sys2Proof.Machine

variable {s t : State}

/-! ### The checks of 40_control.md R82, per command of the two units -/

/-- The checks do not look at the agenda. -/
theorem passesChecks_agenda (s : State) (i : Instr) (agenda : List Event) :
    passesChecks { s with agenda := agenda } i ↔ passesChecks s i := Iff.rfl

theorem passesChecks_clear (s : State) : passesChecks s .clear := ⟨.inr rfl, rfl⟩

theorem DecState.ne_idle_iff {d : DecState} : d ≠ .idle ↔ d = .walk ∨ d = .aborted := by cases d <;> decide

theorem EncState.ne_idle_iff {e : EncState} : e ≠ .idle ↔ e = .active ∨ e = .aborted := by cases e <;> decide

theorem passesChecks_decStart :
    passesChecks s .decStart ↔ s.busy = false ∧ (s.decState = .idle ∨ s.decState = .aborted) := by
  simp [passesChecks, busyExempt, precondition]

theorem passesChecks_decChr {ch : Byte} :
    passesChecks s (.decChr ch) ↔ s.busy = false ∧ (s.decState = .walk ∨ s.decState = .aborted) := by
  simp [passesChecks, busyExempt, precondition, ← DecState.ne_idle_iff]

theorem passesChecks_decEnd :
    passesChecks s .decEnd ↔ s.busy = false ∧ (s.decState = .walk ∨ s.decState = .aborted) := by
  simp [passesChecks, busyExempt, precondition, ← DecState.ne_idle_iff]

theorem passesChecks_encStart :
    passesChecks s .encStart ↔ s.busy = false ∧ (s.encState = .idle ∨ s.encState = .aborted) := by
  simp [passesChecks, busyExempt, precondition]

theorem passesChecks_encSym {b : Byte} :
    passesChecks s (.encSym b) ↔ s.busy = false ∧ (s.encState = .active ∨ s.encState = .aborted) := by
  simp [passesChecks, busyExempt, precondition, ← EncState.ne_idle_iff]

theorem passesChecks_encEnd :
    passesChecks s .encEnd ↔ s.busy = false ∧ (s.encState = .active ∨ s.encState = .aborted) := by
  simp [passesChecks, busyExempt, precondition, ← EncState.ne_idle_iff]

/-! ### The next step by its event -/

theorem nextCommand_eq_some {w : Word} (h : nextCommand s = some w) :
    ∃ rest, s.agenda = .host (.write .cmd w) :: rest := by
  unfold nextCommand at h
  split at h
  case h_1 w' rest ha => cases h; exact ⟨rest, ha⟩
  case h_2 => cases h

theorem nextIsReset_iff : nextIsReset s ↔ ∃ rest, s.agenda = .reset :: rest := List.head?_eq_some_iff

theorem step_of_nextIsReset (h : step s = .next t) (hr : nextIsReset s) :
    t = resetDevice { s with agenda := s.agenda.tail } := by
  obtain ⟨rest, ha⟩ := nextIsReset_iff.1 hr
  rw [step_cons ha] at h
  cases h
  simp [ha]

theorem step_of_nextIssues {i : Instr} (h : step s = .next t) (hi : nextIssues s i) :
    t = issue i (bodyOf i) { s with agenda := s.agenda.tail } := by
  obtain ⟨w, hw, hd⟩ := hi
  obtain ⟨rest, ha⟩ := nextCommand_eq_some hw
  have hc := step_of_case (.command w i rest ha hd)
  rw [h] at hc
  cases hc
  simp [ha]

/-- The next step runs the body of the command it issues, when the checks let it pass. -/
theorem step_of_passesChecks {i : Instr} (h : step s = .next t) (hi : nextIssues s i) (hp : passesChecks s i) :
    t = bodyOf i { s with agenda := s.agenda.tail } :=
  (step_of_nextIssues h hi).trans (issue_passes ((passesChecks_agenda s i _).2 hp))

/-- After a reset or a CLEAR no call is open. -/
theorem step_reset_or_clear_idle (h : step s = .next t) (hc : nextIsReset s ∨ nextIssues s .clear) :
    t.decState = .idle ∧ t.encState = .idle := by
  rcases hc with hr | hi
  · rw [step_of_nextIsReset h hr]; exact ⟨rfl, rfl⟩
  · rw [step_of_passesChecks h hi (passesChecks_clear s)]; exact ⟨rfl, rfl⟩

/-! ### Which steps can change a call state -/

/-- A read changes no call state. -/
theorem hostRead_callStates (P : Params) (r : Reg) (s : State) :
    (hostRead P r s).decState = s.decState ∧ (hostRead P r s).encState = s.encState := by
  cases r <;> exact ⟨rfl, rfl⟩

/-- The ENGINE's turn changes no call state. -/
theorem engineTurn_callStates (s : State) :
    (engineTurn s).decState = s.decState ∧ (engineTurn s).encState = s.encState := by
  obtain ⟨err, info, code, tv, h⟩ := engineTurn_frame s
  rw [h]; exact ⟨rfl, rfl⟩

/-- A step is a reset, or runs the body of a command that passes the checks, or keeps both call states. -/
theorem step_callStates (h : step s = .next t) :
    nextIsReset s
      ∨ (∃ i, nextIssues s i ∧ passesChecks s i ∧ t = bodyOf i { s with agenda := s.agenda.tail })
      ∨ (t.decState = s.decState ∧ t.encState = s.encState) := by
  cases step_cases h with
  | wait => exact .inr (.inr (engineTurn_callStates s))
  | turn => exact .inr (.inr (engineTurn_callStates _))
  | reset rest ha => exact .inl (nextIsReset_iff.2 ⟨rest, ha⟩)
  | read r rest => exact .inr (.inr (hostRead_callStates _ r _))
  | badAddr => exact .inr (.inr ⟨rfl, rfl⟩)
  | badWord => exact .inr (.inr ⟨rfl, rfl⟩)
  | command w i rest ha hd =>
    rcases issue_cases i (bodyOf i) { s with agenda := rest } with ⟨_, _, hr⟩ | ⟨_, _, hr⟩ | ⟨hp, hb⟩
    · rw [hr]; exact .inr (.inr ⟨rfl, rfl⟩)
    · rw [hr]; exact .inr (.inr ⟨rfl, rfl⟩)
    · refine .inr (.inl ⟨i, (nextIssues_command ha hd i).2 rfl, (passesChecks_agenda s i rest).1 hp, ?_⟩)
      rw [hb, ha, List.tail_cons]

/-! ### The decoder's state -/

/-- A walk result changes the decoder's state only when it aborts. -/
theorem applyWalk_decState_ne {opc : BitVec 4} {r : WalkResult} (h : (applyWalk opc r s).decState ≠ s.decState) :
    ∃ e d1 d2, r = .abort e d1 d2 := by
  cases r with
  | abort e d1 d2 => exact ⟨e, d1, d2, rfl⟩
  | _ => exact absurd rfl h

/-- A DEC_CHR body changes the decoder's state only by an aborting walk. -/
theorem bodyDecChr_decState_ne {P : Params} {ch : Byte} (h : (bodyDecChr P ch s).decState ≠ s.decState) :
    s.decState ≠ .aborted ∧ s.symFifo.length ≠ P.symFifoDepth
      ∧ ∃ e d1 d2, walk s.nodes s.cfg s.cur s.depth ch = .abort e d1 d2 := by
  rcases bodyDecChr_cases P ch s with ⟨_, hb⟩ | ⟨_, _, hb⟩ | ⟨ha, hf, hb⟩
  · rw [hb] at h; exact absurd rfl h
  · rw [hb] at h; exact absurd rfl h
  · rw [hb] at h
    exact ⟨ha, hf, applyWalk_decState_ne h⟩

/-- A DEC_CHR in WALK with room in the FIFO whose walk aborts leaves the decoder ABORTED. -/
theorem bodyDecChr_abort {P : Params} {ch : Byte} {e : Err} {d1 d2 : Byte} (hs : s.decState = .walk)
    (hf : s.symFifo.length ≠ P.symFifoDepth) (hw : walk s.nodes s.cfg s.cur s.depth ch = .abort e d1 d2) :
    bodyDecChr P ch s = abortDec (raise e (opcode (.decChr ch)) d1 d2 s) := by
  simp [bodyDecChr, hs, hf, hw, applyWalk]

@[simp] theorem bodyDecEnd_decState (s : State) : (bodyDecEnd s).decState = .idle := by
  unfold bodyDecEnd; split <;> rfl

@[simp] theorem bodyEncSym_decState (P : Params) (b : Byte) (s : State) : (bodyEncSym P b s).decState = s.decState := by
  rcases bodyEncSym_cases P b s with ⟨_, hb⟩ | ⟨_, _, hb⟩ | ⟨_, c, _, ⟨_, hb⟩ | ⟨_, hb⟩⟩ <;> rw [hb] <;> rfl

/-- The commands whose bodies can change the decoder's state. -/
theorem bodyOf_decState_ne {i : Instr} (h : (bodyOf i s).decState ≠ s.decState) :
    i = .clear ∨ i = .decStart ∨ i = .decEnd ∨ ∃ ch, i = .decChr ch := by
  cases i with
  | clear => exact .inl rfl
  | decStart => exact .inr (.inl rfl)
  | decEnd => exact .inr (.inr (.inl rfl))
  | decChr ch => exact .inr (.inr (.inr ⟨ch, rfl⟩))
  | encSym b => exact absurd (bodyEncSym_decState _ b s) h
  | _ => exact absurd rfl h

/-- R45's "No other event": what a step that changes the decoder's state is. -/
theorem step_decState_ne (h : step s = .next t) (hne : t.decState ≠ s.decState) :
    nextIsReset s ∨ nextIssues s .clear
      ∨ (nextIssues s .decStart ∧ s.busy = false ∧ (s.decState = .idle ∨ s.decState = .aborted))
      ∨ (∃ ch, nextIssues s (.decChr ch) ∧ s.busy = false ∧ s.decState = .walk
          ∧ s.symFifo.length ≠ Config.params.symFifoDepth
          ∧ ∃ e d1 d2, walk s.nodes s.cfg s.cur s.depth ch = .abort e d1 d2
              ∧ (e = .badChar ∨ e = .badPath ∨ e = .treeMalformed))
      ∨ (nextIssues s .decEnd ∧ s.busy = false ∧ (s.decState = .walk ∨ s.decState = .aborted)) := by
  rcases step_callStates h with hr | ⟨i, hi, hp, rfl⟩ | ⟨hd, _⟩
  · exact .inl hr
  · rcases bodyOf_decState_ne hne with rfl | rfl | rfl | ⟨ch, rfl⟩
    · exact .inr (.inl hi)
    · exact .inr (.inr (.inl ⟨hi, passesChecks_decStart.1 hp⟩))
    · exact .inr (.inr (.inr (.inr ⟨hi, passesChecks_decEnd.1 hp⟩)))
    · obtain ⟨ha, hf, e, d1, d2, hw⟩ := bodyDecChr_decState_ne hne
      obtain ⟨hb, hs⟩ := passesChecks_decChr.1 hp
      exact .inr (.inr (.inr (.inl ⟨ch, hi, hb, hs.resolve_right ha, hf, e, d1, d2, hw, walk_abort hw⟩)))
  · exact absurd hd hne

/-- Settles O3: the transitions of the table by the body each accepted command runs, and no other by the inversion of a
step. -/
theorem decoderStateTransitions : Obligations.DecoderStateTransitions := by
  intro s t h
  refine ⟨fun hc => (step_reset_or_clear_idle h hc).1, fun hi hb hs => ?start, fun ch hi hb hs hf hw => ?abort,
    fun ch hi hb hs => ?ignored, fun hi hb hs => ?finish, step_decState_ne h⟩
  case start =>
    rw [step_of_passesChecks h hi (passesChecks_decStart.2 ⟨hb, hs⟩)]; rfl
  case abort =>
    obtain ⟨e, d1, d2, hw⟩ := hw
    rw [step_of_passesChecks h hi (passesChecks_decChr.2 ⟨hb, .inl hs⟩)]
    exact congrArg State.decState
      (bodyDecChr_abort (P := Config.params) (s := { s with agenda := s.agenda.tail }) hs hf hw)
  case ignored =>
    exact (step_of_passesChecks h hi (passesChecks_decChr.2 ⟨hb, .inr hs⟩)).trans (if_pos hs)
  case finish =>
    rw [step_of_passesChecks h hi (passesChecks_decEnd.2 ⟨hb, hs⟩)]; exact bodyDecEnd_decState _

/-! ### The encoder's state -/

/-- An ENC_SYM body changes the encoder's state only for a symbol byte without a code. -/
theorem bodyEncSym_encState_ne {P : Params} {b : Byte} (h : (bodyEncSym P b s).encState ≠ s.encState) :
    s.encState ≠ .aborted ∧ readCodeByte s.code b = none := by
  rcases bodyEncSym_cases P b s with ⟨_, hb⟩ | ⟨ha, hc, _⟩ | ⟨_, c, _, ⟨_, hb⟩ | ⟨_, hb⟩⟩
  · rw [hb] at h; exact absurd rfl h
  · exact ⟨ha, hc⟩
  · rw [hb] at h; exact absurd rfl h
  · rw [hb] at h; exact absurd rfl h

/-- An ENC_SYM of an unmapped byte in ACTIVE leaves the encoder ABORTED. -/
theorem bodyEncSym_unmapped {P : Params} {b : Byte} (hs : s.encState = .active) (hc : readCodeByte s.code b = none) :
    bodyEncSym P b s = abortEnc (raise .unmapped (opcode (.encSym b)) b 0 s) := by
  simp [bodyEncSym, hs, hc]

@[simp] theorem applyWalk_encState (opc : BitVec 4) (r : WalkResult) (s : State) :
    (applyWalk opc r s).encState = s.encState := by cases r <;> rfl

@[simp] theorem bodyDecChr_encState (P : Params) (ch : Byte) (s : State) : (bodyDecChr P ch s).encState = s.encState := by
  rcases bodyDecChr_cases P ch s with ⟨_, hb⟩ | ⟨_, _, hb⟩ | ⟨_, _, hb⟩
  · rw [hb]
  · rw [hb]; rfl
  · rw [hb, applyWalk_encState]

@[simp] theorem bodyDecEnd_encState (s : State) : (bodyDecEnd s).encState = s.encState := by
  unfold bodyDecEnd; split <;> rfl

/-- The commands whose bodies can change the encoder's state. -/
theorem bodyOf_encState_ne {i : Instr} (h : (bodyOf i s).encState ≠ s.encState) :
    i = .clear ∨ i = .encStart ∨ i = .encEnd ∨ ∃ b, i = .encSym b := by
  cases i with
  | clear => exact .inl rfl
  | encStart => exact .inr (.inl rfl)
  | encEnd => exact .inr (.inr (.inl rfl))
  | encSym b => exact .inr (.inr (.inr ⟨b, rfl⟩))
  | decChr ch => exact absurd (bodyDecChr_encState _ ch s) h
  | decEnd => exact absurd (bodyDecEnd_encState s) h
  | _ => exact absurd rfl h

/-- R46's "No other event": what a step that changes the encoder's state is. -/
theorem step_encState_ne (h : step s = .next t) (hne : t.encState ≠ s.encState) :
    nextIsReset s ∨ nextIssues s .clear
      ∨ (nextIssues s .encStart ∧ s.busy = false ∧ (s.encState = .idle ∨ s.encState = .aborted))
      ∨ (∃ b, nextIssues s (.encSym b) ∧ s.busy = false ∧ s.encState = .active ∧ readCodeByte s.code b = none)
      ∨ (nextIssues s .encEnd ∧ s.busy = false ∧ (s.encState = .active ∨ s.encState = .aborted)) := by
  rcases step_callStates h with hr | ⟨i, hi, hp, rfl⟩ | ⟨_, he⟩
  · exact .inl hr
  · rcases bodyOf_encState_ne hne with rfl | rfl | rfl | ⟨b, rfl⟩
    · exact .inr (.inl hi)
    · exact .inr (.inr (.inl ⟨hi, passesChecks_encStart.1 hp⟩))
    · exact .inr (.inr (.inr (.inr ⟨hi, passesChecks_encEnd.1 hp⟩)))
    · obtain ⟨ha, hc⟩ := bodyEncSym_encState_ne hne
      obtain ⟨hb, hs⟩ := passesChecks_encSym.1 hp
      exact .inr (.inr (.inr (.inl ⟨b, hi, hb, hs.resolve_right ha, hc⟩)))
  · exact absurd he hne

/-- Settles O4: the transitions of the table by the body each accepted command runs, and no other by the inversion of a
step. -/
theorem encoderStateTransitions : Obligations.EncoderStateTransitions := by
  intro s t h
  refine ⟨fun hc => (step_reset_or_clear_idle h hc).2, fun hi hb hs => ?start, fun b hi hb hs hc => ?abort,
    fun b hi hb hs => ?ignored, fun hi hb hs => ?finish, step_encState_ne h⟩
  case start =>
    rw [step_of_passesChecks h hi (passesChecks_encStart.2 ⟨hb, hs⟩)]; rfl
  case abort =>
    rw [step_of_passesChecks h hi (passesChecks_encSym.2 ⟨hb, .inl hs⟩)]
    exact congrArg State.encState
      (bodyEncSym_unmapped (P := Config.params) (s := { s with agenda := s.agenda.tail }) hs hc)
  case ignored =>
    exact (step_of_passesChecks h hi (passesChecks_encSym.2 ⟨hb, .inr hs⟩)).trans (if_pos hs)
  case finish =>
    rw [step_of_passesChecks h hi (passesChecks_encEnd.2 ⟨hb, hs⟩)]; rfl

/-! ### The interrupt level -/

theorem irq_eq_true_iff (s : State) :
    irq s = true ↔ (irqErrEn s.cfg = true ∧ s.err ≠ 0) ∨ (irqSymEn s.cfg = true ∧ s.symFifo ≠ [])
      ∨ (irqEncEn s.cfg = true ∧ s.encFifo ≠ []) := by
  simp only [irq, Bool.or_eq_true, Bool.and_eq_true, decide_eq_true_eq, List.length_pos_iff, or_assoc]

theorem status_irq (P : Params) (s : State) : (status P s).getLsbD 11 = irq s := by
  simp only [status, BitVec.getLsbD_append]; simp

/-- Settles O2: each source of the level is its enable bit and its cause, and STATUS holds the level in its bit 11. -/
theorem interruptIsALevelOfTheState : Obligations.InterruptIsALevelOfTheState :=
  fun s => ⟨irq_eq_true_iff s, status_irq Config.params s⟩

/-! ### CLEAR -/

/-- CLEAR is exempt from the checks: it always runs its body. -/
theorem exec_clear (s : State) : exec .clear s = .next (bodyClear s) := by
  rw [exec_eq, issue_passes (passesChecks_clear s)]; rfl

theorem bodyClear_eq_reset (s : State) : bodyClear s = { State.reset with
    cfg := s.cfg, err := s.err, errInfo := s.errInfo, agenda := s.agenda, reads := s.reads } := rfl

/-- Settles O19: CLEAR always runs its body, which writes the reset value to every other component. -/
theorem clearKeepsConfigurationAndErrors : Obligations.ClearKeepsConfigurationAndErrors :=
  fun s => (exec_clear s).trans (congrArg Host.Outcome.next (bodyClear_eq_reset s))

end Sys2Proof.Machine

/-! SUPPORT. The statements about the words (30_encoding.md): the opcode map against the decoder, the node word and the
code read-back word. The facts about masks and about the decoder's cases come first. -/

namespace Sys2Proof

/-! ### Masks, field by field -/

/-- A word matches a pattern under a mask exactly when each of two adjacent fields does. -/
theorem and_append_eq_append_iff {m n : Nat} {w : BitVec (m + n)} {a c : BitVec m} {b d : BitVec n} :
    w &&& (a ++ b) = c ++ d ↔ w.extractLsb' n m &&& a = c ∧ w.extractLsb' 0 n &&& b = d := by
  have hw : w &&& (a ++ b) = (w.extractLsb' n m &&& a) ++ (w.extractLsb' 0 n &&& b) := by
    rw [← BitVec.and_append, BitVec.extractLsb'_append_extractLsb']
  rw [hw]
  constructor
  · intro h
    have hhi := congrArg (BitVec.extractLsb' n m) h
    have hlo := congrArg (BitVec.extractLsb' 0 n) h
    simp only [BitVec.extractLsb'_append_eq_left] at hhi
    simp only [BitVec.extractLsb'_append_eq_right] at hlo
    exact ⟨hhi, hlo⟩
  · rintro ⟨rfl, rfl⟩; rfl

/-- The rows' masks hold the whole opcode; the rest of a mask is for the operand bits. -/
theorem and_opcodeMask_iff {w : Word} {k : BitVec 4} {om c : BitVec 28} :
    w &&& (0xF#4 ++ om) = k ++ c ↔ wordOpcode w = k ∧ w.extractLsb' 0 28 &&& om = c := by
  rw [show (0xF#4 : BitVec 4) = BitVec.allOnes 4 from rfl,
    and_append_eq_append_iff (m := 4) (n := 28), BitVec.and_allOnes]
  rfl

/-- Formats C, I and B: the reserved bits are those above the operand. -/
theorem and_highMask_iff {l m n : Nat} (h : m + n = l) {x : BitVec l} :
    x &&& (BitVec.allOnes m ++ 0#n).cast h = 0 ↔ x.extractLsb' n m = 0 := by
  subst h
  rw [BitVec.cast_eq, show (0 : BitVec (m + n)) = 0#m ++ 0#n from BitVec.zero_append_zero.symm,
    and_append_eq_append_iff, BitVec.and_allOnes, BitVec.and_zero]
  exact and_iff_left rfl

/-- Format W: the reserved bits are [19:17]. -/
theorem and_nodeWrMask_iff {w : Word} :
    w.extractLsb' 0 28 &&& 0x00E0000#28 = 0 ↔ w.extractLsb' 17 3 = 0 := by
  rw [show 0x00E0000#28 = 0#8 ++ (BitVec.allOnes 3 ++ 0#17).cast rfl from rfl,
    show (0 : BitVec 28) = 0#8 ++ (0 : BitVec 20) from rfl,
    and_append_eq_append_iff (m := 8) (n := 20), and_highMask_iff (m := 3) (n := 17), BitVec.and_zero]
  simp (disch := decide) only [BitVec.extractLsb'_extractLsb'_of_le, true_and]

/-- Format P: the reserved bits are [27:11] and [7]. -/
theorem and_codeRdMask_iff {w : Word} :
    w.extractLsb' 0 28 &&& 0xFFFF880#28 = 0 ↔ w.extractLsb' 11 17 = 0 ∧ w.extractLsb' 7 1 = 0 := by
  rw [show 0xFFFF880#28 = BitVec.allOnes 17 ++ (0#3 ++ (BitVec.allOnes 1 ++ 0#7).cast rfl) from rfl,
    show (0 : BitVec 28) = (0 : BitVec 17) ++ (0#3 ++ (0 : BitVec 8)) from rfl,
    and_append_eq_append_iff (m := 17) (n := 11), and_append_eq_append_iff (m := 3) (n := 8),
    and_highMask_iff (m := 1) (n := 7), BitVec.and_allOnes, BitVec.and_zero]
  simp (disch := decide) only [BitVec.extractLsb'_extractLsb'_of_le, true_and]

/-! ### What the decoder does with a word -/

/-- Everything the decoder can do with a word: format W, format P, a command whose reserved bits must be 0, or the
opcode without a command. -/
inductive DecodeCase (w : Word) : Except DecodeError Instr → Prop where
  | reserved {n : Nat} (r : BitVec n) (i : Instr) (h : opcode i = wordOpcode w) : DecodeCase w (ifReservedZero r i)
  | nodeWr (h : wordOpcode w = 0x4#4) : DecodeCase w (decodeNodeWr w)
  | codeRd (h : wordOpcode w = 0x8#4) : DecodeCase w (decodeCodeRd w)
  | badOpcode (h : wordOpcode w = 0xF#4) : DecodeCase w (.error .badOpcode)

theorem decode_cases (w : Word) : DecodeCase w (decode w) := by
  unfold decode
  split
  case h_5 h => exact .nodeWr (BitVec.eq_of_toNat_eq h)
  case h_9 h => exact .codeRd (BitVec.eq_of_toNat_eq h)
  case h_16 =>
    have hk : (wordOpcode w).toNat = 0xF := by simp only [imp_false] at *; omega
    exact .badOpcode (BitVec.eq_of_toNat_eq hk)
  all_goals
    rename_i h
    exact .reserved _ _ (BitVec.eq_of_toNat_eq h.symm)

theorem exists_ifReservedZero_ok {n : Nat} {r : BitVec n} {i : Instr} :
    (∃ j, ifReservedZero r i = .ok j) ↔ r = 0 := by simp [ifReservedZero_ok]

theorem ifReservedZero_ne_badOpcode {n : Nat} (r : BitVec n) (i : Instr) :
    ifReservedZero r i ≠ .error .badOpcode := by unfold ifReservedZero; split <;> simp

/-- What format W accepts: an internal node with [19:17] = 0, or a leaf with [15:7] = 0 too. -/
theorem decodeNodeWr_ok_iff {w : Word} {i : Instr} : decodeNodeWr w = .ok i ↔ w.extractLsb' 17 3 = 0 ∧
    if w.extractLsb' 16 1 = 1 then
      w.extractLsb' 7 9 = 0 ∧ .nodeWr (w.extractLsb' 20 8) (.leaf (w.extractLsb' 0 7)) = i
    else .nodeWr (w.extractLsb' 20 8) (.internal (wordByte0 w) (wordByte1 w)) = i := by
  unfold decodeNodeWr
  split
  case isTrue h => split <;> simp [h, ifReservedZero_ok]
  case isFalse h => exact iff_of_false nofun fun hc => h hc.1

theorem decodeNodeWr_ne_badOpcode (w : Word) : decodeNodeWr w ≠ .error .badOpcode := by
  unfold decodeNodeWr
  split
  · split
    · exact ifReservedZero_ne_badOpcode _ _
    · simp
  · simp

/-- What format P accepts. -/
theorem decodeCodeRd_ok_iff {w : Word} {i : Instr} : decodeCodeRd w = .ok i ↔
    (w.extractLsb' 11 17 = 0 ∧ w.extractLsb' 7 1 = 0 ∧ (w.extractLsb' 8 3).toNat ≤ 4)
      ∧ .codeRd (w.extractLsb' 0 7) (w.extractLsb' 8 3) = i := by
  unfold decodeCodeRd; split <;> simp_all

theorem decodeCodeRd_ne_badOpcode (w : Word) : decodeCodeRd w ≠ .error .badOpcode := by
  unfold decodeCodeRd; split <;> simp

/-- The command a word decodes to has the word's opcode. -/
theorem opcode_of_decode_ok {w : Word} {i : Instr} (h : decode w = .ok i) : opcode i = wordOpcode w := by
  have hc := decode_cases w
  generalize decode w = d at h hc
  cases hc with
  | reserved r j hj =>
    obtain ⟨_, rfl⟩ := ifReservedZero_ok.1 h
    exact hj
  | nodeWr hk =>
    obtain ⟨_, hi⟩ := decodeNodeWr_ok_iff.1 h
    rw [hk]
    split at hi
    · obtain ⟨_, rfl⟩ := hi; rfl
    · subst hi; rfl
  | codeRd hk =>
    obtain ⟨_, rfl⟩ := decodeCodeRd_ok_iff.1 h
    exact hk.symm
  | badOpcode => cases h

/-- BAD_OPCODE is the answer to opcode 0xF, and to it alone. -/
theorem decode_badOpcode_iff {w : Word} : decode w = .error .badOpcode ↔ wordOpcode w = 0xF#4 := by
  constructor
  · intro h
    have hc := decode_cases w
    generalize decode w = d at h hc
    cases hc with
    | reserved r j => exact absurd h (ifReservedZero_ne_badOpcode r j)
    | nodeWr => exact absurd h (decodeNodeWr_ne_badOpcode w)
    | codeRd => exact absurd h (decodeCodeRd_ne_badOpcode w)
    | badOpcode hk => exact hk
  · intro h; simp [decode, h]

/-! ### The rows of the opcode map -/

/-- Every command has a row. -/
theorem exists_opcodeMap_row (i : Instr) : ∃ row ∈ opcodeMap, row.opc = opcode i := by
  cases i <;> simp [opcodeMap, opcode]

/-- A row agrees with the decoder when, among the words of its opcode, the accepted ones are those whose operand bits
match and whose extra condition holds. -/
theorem spells_iff_of_accepted_iff {w : Word} {k : BitVec 4} {om : BitVec 28} {x : ExtraCondition}
    (h : wordOpcode w = k →
      ((∃ i, decode w = .ok i) ↔ w.extractLsb' 0 28 &&& om = 0 ∧ extraHolds w x = true)) :
    spells w ⟨k, k ++ 0#28, 0xF#4 ++ om, x⟩ = true ↔ ∃ i, decode w = .ok i ∧ opcode i = k := by
  have hop : (∃ i, decode w = .ok i ∧ opcode i = k) ↔ wordOpcode w = k ∧ ∃ i, decode w = .ok i :=
    ⟨fun ⟨i, hi, hk⟩ => ⟨(opcode_of_decode_ok hi).symm.trans hk, i, hi⟩,
      fun ⟨hk, i, hi⟩ => ⟨i, hi, (opcode_of_decode_ok hi).trans hk⟩⟩
  simp only [spells, Bool.and_eq_true, decide_eq_true_eq, and_opcodeMask_iff, and_assoc, hop]
  exact and_congr_right fun hk => (h hk).symm

section rows

variable {w : Word} {k : BitVec 4} {j : Instr}

/-- The rows without operands. -/
theorem spells_noOperand_iff (h : wordOpcode w = k → decode w = ifReservedZero (w.extractLsb' 0 28) j) :
    spells w ⟨k, k ++ 0#28, 0xF#4 ++ 0xFFFFFFF#28, .always⟩ = true ↔ ∃ i, decode w = .ok i ∧ opcode i = k :=
  spells_iff_of_accepted_iff fun hk => by
    rw [h hk, exists_ifReservedZero_ok, show 0xFFFFFFF#28 = BitVec.allOnes 28 from rfl, BitVec.and_allOnes]
    exact (and_iff_left rfl).symm

/-- The rows with one operand of `n` bits at bit 0. -/
theorem spells_lowOperand_iff {m n : Nat} (hmn : m + n = 28)
    (h : wordOpcode w = k → decode w = ifReservedZero (w.extractLsb' n m) j) :
    spells w ⟨k, k ++ 0#28, 0xF#4 ++ (BitVec.allOnes m ++ 0#n).cast hmn, .always⟩ = true
      ↔ ∃ i, decode w = .ok i ∧ opcode i = k :=
  spells_iff_of_accepted_iff fun hk => by
    rw [h hk, exists_ifReservedZero_ok, and_highMask_iff, BitVec.extractLsb'_extractLsb'_of_le (by omega)]
    exact (and_iff_left rfl).symm

/-- The row of NODE_WR. -/
theorem spells_nodeWr_iff :
    spells w ⟨0x4#4, 0x4#4 ++ 0#28, 0xF#4 ++ 0x00E0000#28, .leafFieldZero⟩ = true
      ↔ ∃ i, decode w = .ok i ∧ opcode i = 0x4#4 :=
  spells_iff_of_accepted_iff fun hk => by
    simp only [decode_nodeWr hk, decodeNodeWr_ok_iff, and_nodeWrMask_iff, extraHolds, decide_eq_true_eq,
      exists_and_left]
    refine and_congr_right fun _ => ?_
    split
    case isTrue h => simp [h]
    case isFalse h => exact iff_of_true ⟨_, rfl⟩ fun hl => absurd hl h

/-- The row of CODE_RD. -/
theorem spells_codeRd_iff :
    spells w ⟨0x8#4, 0x8#4 ++ 0#28, 0xF#4 ++ 0xFFFF880#28, .partAtMostFour⟩ = true
      ↔ ∃ i, decode w = .ok i ∧ opcode i = 0x8#4 :=
  spells_iff_of_accepted_iff fun hk => by
    simp only [decode_codeRd hk, decodeCodeRd_ok_iff, and_codeRdMask_iff, extraHolds, decide_eq_true_eq,
      exists_and_left, exists_eq', and_true, and_assoc]

end rows

/-- R74, row by row. -/
theorem spells_iff_decode_ok (w : Word) :
    ∀ row ∈ opcodeMap, spells w row = true ↔ ∃ i, decode w = .ok i ∧ opcode i = row.opc := by
  simp only [opcodeMap, List.cons_append, List.nil_append, List.forall_mem_cons]
  refine ⟨?nop, ?clear, ?clrErr, ?setCfg, spells_nodeWr_iff, ?setRoot, ?nodeRd, ?genTable, spells_codeRd_iff,
    ?decStart, ?decChr, ?decEnd, ?encStart, ?encSym, ?encEnd, List.forall_mem_nil _⟩
  case setCfg => exact spells_lowOperand_iff (m := 23) (n := 5) rfl fun h => by simp only [decode, h]; rfl
  case setRoot | nodeRd | decChr | encSym =>
    exact spells_lowOperand_iff (m := 20) (n := 8) rfl fun h => by simp only [decode, h]; rfl
  case nop | clear | clrErr | genTable | decStart | decEnd | encStart | encEnd =>
    exact spells_noOperand_iff fun h => by simp only [decode, h]; rfl

/-- Settles O11: each row by its format, the opcodes of the rows are those of the commands, and BAD_OPCODE by the
decoder's cases. -/
theorem acceptedWordsAreTheOpcodeMap : Obligations.AcceptedWordsAreTheOpcodeMap := by
  intro w
  refine ⟨spells_iff_decode_ok w, fun i _ => exists_opcodeMap_row i, ?_⟩
  calc decode w = .error .badOpcode
    _ ↔ wordOpcode w = 0xF#4 := decode_badOpcode_iff
    _ ↔ wordOpcode w = 0xF#4 ∧ w.extractLsb' 0 28 &&& 0#28 = 0#28 := by simp
    _ ↔ w &&& (0xF#4 ++ 0#28) = 0xF#4 ++ 0#28 := and_opcodeMask_iff.symm

/-! ### The node word -/

/-- The number of two adjacent fields. -/
theorem toNat_append_eq_add {m n : Nat} (x : BitVec m) (y : BitVec n) :
    (x ++ y).toNat = x.toNat * 2 ^ n + y.toNat := by
  rw [BitVec.toNat_append, ← Nat.shiftLeft_add_eq_or_of_lt y.isLt, Nat.shiftLeft_eq]

theorem nodeBits_leaf_toNat (y : Sym) : (nodeBits (.leaf y)).toNat = 0x10000 + y.toNat := by
  simp only [nodeBits, toNat_append_eq_add, BitVec.toNat_ofNat]; omega

theorem nodeBits_internal_toNat (l r : NodeIdx) : (nodeBits (.internal l r)).toNat = 256 * r.toNat + l.toNat := by
  simp only [nodeBits, toNat_append_eq_add, BitVec.toNat_ofNat]; omega

/-- The low 17 bits of a NODE_WR are the node. -/
theorem encode_nodeWr_nodeBits (idx : NodeIdx) (n : Node) :
    (encode (.nodeWr idx n)).extractLsb' 0 17 = nodeBits n := by
  obtain ⟨_, hop⟩ := Laws.encodedFields_all (.nodeWr idx n)
  rw [← BitVec.extractLsb'_extractLsb'_of_le (len' := 28) (by decide), hop]
  exact BitVec.extractLsb'_append_eq_right

end Sys2Proof

namespace Sys2Proof.Machine

theorem nodeWord_some_toNat (n : Node) : (nodeWord (some n)).toNat = 0x80000000 + (nodeBits n).toNat := by
  simp only [nodeWord, toNat_append_eq_add, BitVec.toNat_ofNat]; omega

theorem nodeWord_some_nodeBits (n : Node) : (nodeWord (some n)).extractLsb' 0 17 = nodeBits n :=
  BitVec.extractLsb'_append_eq_right

/-- NODE_RD has no precondition but the busy interlock. -/
theorem exec_nodeRd {s : State} (h : s.busy = false) (idx : NodeIdx) :
    exec (.nodeRd idx) s = .next { s with rdata := nodeWord (readNode s.nodes idx) } := by
  rw [exec_eq, issue_passes ⟨.inl h, rfl⟩]; rfl

/-- Settles O13: RDATA by NODE_RD's body, the words as sums of their fields, and bits [16:0] as the node's in both
words. -/
theorem nodeWordFormat : Obligations.NodeWordFormat := by
  refine ⟨fun idx s h => exec_nodeRd h idx, rfl, fun y => ?leaf, fun l r => ?internal, fun idx n => ?bits⟩
  case leaf => rw [nodeWord_some_toNat, nodeBits_leaf_toNat, ← Nat.add_assoc]
  case internal => rw [nodeWord_some_toNat, nodeBits_internal_toNat, Nat.add_assoc]
  case bits => rw [nodeWord_some_nodeBits, encode_nodeWr_nodeBits]

/-! ### The code read-back word -/

/-- CODE_RD has no precondition but the busy interlock. -/
theorem exec_codeRd {s : State} (h : s.busy = false) (y : Sym) (p : BitVec 3) :
    exec (.codeRd y p) s = .next { s with rdata := codeWord (readCode s.code y) p } := by
  rw [exec_eq, issue_passes ⟨.inl h, rfl⟩]; rfl

theorem codeWord_zero_toNat {c : Code} (h : c.length < 2 ^ 31) : (codeWord (some c) 0).toNat = 2 ^ 31 + c.length := by
  rw [codeWord_zero, BitVec.toNat_add, BitVec.toNat_ofNat, BitVec.toNat_ofNat]; omega

/-- Bit `i` of part `p` is the element of the code that is `i` past the part's first. -/
theorem codeWord_part_getLsbD (c : Code) {p : BitVec 3} {i : Nat} (hp : p ≠ 0) (hi : i < 32) :
    (codeWord (some c) p).getLsbD i = c.getD (32 * (p.toNat - 1) + i) false := by
  rw [codeWord_part hp, BitVec.getLsbD_ofNat, bitsToNat_testBit]
  simp [List.getD_eq_getElem?_getD, hi]

/-- Settles O14: RDATA by CODE_RD's body, part 0 as a sum that 32 bits hold, and the other parts bit by bit. -/
theorem codeWordFormat : Obligations.CodeWordFormat := by
  refine ⟨fun y p s _ h => exec_codeRd h y p, fun _ => rfl, fun c h => codeWord_zero_toNat (by omega),
    fun c p i h1 _ hi => codeWord_part_getLsbD c ?_ hi⟩
  rintro rfl
  exact absurd h1 (by decide)

end Sys2Proof.Machine

/-! SUPPORT. The statement about the decoder (42_decode.md): the direction function by its three kinds of character, and CFG
bit 0 as a host read returns it. -/

namespace Sys2Proof.Machine

/-! ### The direction of a character -/

/-- '0' descends left, whatever the configuration. -/
@[simp] theorem dir_char0 (cfg : BitVec 5) : dir 0x30#8 cfg = some .left := rfl

/-- '1' descends right, whatever the configuration. -/
@[simp] theorem dir_char1 (cfg : BitVec 5) : dir 0x31#8 cfg = some .right := rfl

/-- For any other character STRICT_ALPHA decides alone. -/
theorem dir_of_ne {ch : Byte} (h0 : ch ≠ 0x30#8) (h1 : ch ≠ 0x31#8) (cfg : BitVec 5) :
    dir ch cfg = if strictAlpha cfg = false then some .right else none := by
  rw [dir, if_neg h0, if_neg h1]

/-- A read of CFG returns the five flag bits at bits [4:0]. -/
theorem readValue_cfg_getLsbD (P : Params) (s : State) {k : Nat} (hk : k < 5) :
    (readValue P .cfg s).getLsbD k = s.cfg.getLsbD k := by
  simp only [readValue, BitVec.getLsbD_append, hk, if_true]

/-- Settles O27: the two code characters by their equations, every other character by STRICT_ALPHA, and the read of CFG bit
by bit. -/
theorem directionOfACharacter : Obligations.DirectionOfACharacter := by
  refine ⟨dir_char0, dir_char1, fun ch cfg h0 h1 hs => ?lenient, fun ch cfg h0 h1 hs => ?strict,
    fun s => readValue_cfg_getLsbD _ s (by decide)⟩
  case lenient => exact (dir_of_ne h0 h1 cfg).trans (if_pos hs)
  case strict => exact (dir_of_ne h0 h1 cfg).trans (if_neg (ne_false_of_eq_true hs))

end Sys2Proof.Machine

/-! SUPPORT. The statements about the host port (44_host_reads.md): the reads by the table, the two pops, and the writes
elsewhere. What a read does to the state and the numbers of the register words come first. -/

namespace Sys2Proof.Machine

variable {s : State}

/-! ### A read as a step -/

/-- The next step performs the read on the state without it. -/
theorem step_read {r : Reg} {rest : List Event} (h : s.agenda = .host (.read r) :: rest) :
    step s = .next (hostRead Config.params r { s with agenda := rest }) := step_of_case (.read r rest h)

/-- The value read does not depend on what is still to come. -/
theorem readValue_agenda (P : Params) (r : Reg) (s : State) (agenda : List Event) :
    readValue P r { s with agenda := agenda } = readValue P r s := by cases r <;> rfl

/-- Only the two pops have an effect. -/
theorem readEffect_of_ne {r : Reg} (hsym : r ≠ .symOut) (henc : r ≠ .encOut) (s : State) : readEffect r s = s := by
  cases r with
  | symOut => exact absurd rfl hsym
  | encOut => exact absurd rfl henc
  | _ => rfl

/-- A read that does not pop leaves nothing but its value behind. -/
theorem hostRead_of_ne {r : Reg} (hsym : r ≠ .symOut) (henc : r ≠ .encOut) (P : Params) (s : State) :
    hostRead P r s = { s with reads := s.reads ++ [readValue P r s] } := by
  rw [hostRead, readEffect_of_ne hsym henc]

/-! ### The register words as numbers -/

theorem toNat_ofBool_eq_bit (b : Bool) : (BitVec.ofBool b).toNat = bit (b = true) := by cases b <;> rfl

theorem bit_decide (p : Prop) [Decidable p] : bit (decide p = true) = bit p := by simp only [bit, decide_eq_true_eq]

theorem caps_toNat {P : Params} (hP : P.inRange) (s : State) : (caps P).toNat = registerNumber P s .caps := by
  obtain ⟨⟨_, hsym⟩, _, henc⟩ := hP
  simp only [caps, Config.nodeCount, Config.maxCodeLen, toNat_append_eq_add, BitVec.toNat_ofNat, registerNumber]
  omega

theorem errInfoWord_toNat (P : Params) (s : State) : (errInfoWord s.errInfo).toNat = registerNumber P s .errInfo := by
  simp only [errInfoWord, toNat_append_eq_add, toNat_ofBool_eq_bit, BitVec.toNat_ofNat, registerNumber]
  omega

theorem statusByte_toNat (s : State) :
    (statusByte s).toNat = (decStateCode s.decState).toNat + 4 * (encStateCode s.encState).toNat
      + 16 * bit (s.busy = true) + 32 * bit (s.tableValid = true) + 64 * bit (s.depth = 0) + 128 * bit (s.err ≠ 0) := by
  simp only [statusByte, toNat_append_eq_add, toNat_ofBool_eq_bit, bit_decide]
  omega

/-- The table's STATUS is its low byte with the four level bits and the two counts. -/
theorem registerNumber_status (P : Params) (s : State) :
    registerNumber P s .status = (statusByte s).toNat
      + 256 * bit (s.symFifo.length < P.symFifoDepth) + 512 * bit (0 < s.symFifo.length)
      + 1024 * bit (0 < s.encFifo.length) + 2048 * bit (irq s = true)
      + 2 ^ 16 * s.symFifo.length + 2 ^ 24 * s.encFifo.length := by
  rw [statusByte_toNat, registerNumber]
  cases s.decState <;> cases s.encState <;> rfl

/-- STATUS, when 8 bits hold the two counts. -/
theorem status_toNat {P : Params} (hsym : s.symFifo.length < 2 ^ 8) (henc : s.encFifo.length < 2 ^ 8) :
    (status P s).toNat = registerNumber P s .status := by
  rw [registerNumber_status]
  simp only [status, toNat_append_eq_add, toNat_ofBool_eq_bit, bit_decide, BitVec.toNat_ofNat,
    Nat.mod_eq_of_lt hsym, Nat.mod_eq_of_lt henc]
  omega

/-- R112's table, for depths in their ranges and FIFOs within them. -/
theorem readValue_toNat {P : Params} {r : Reg} (hP : P.inRange) (hfsym : s.symFifo.length ≤ P.symFifoDepth)
    (hfenc : s.encFifo.length ≤ P.encFifoDepth) (hsym : r ≠ .symOut) (henc : r ≠ .encOut) :
    (readValue P r s).toNat = registerNumber P s r := by
  cases r with
  | symOut => exact absurd rfl hsym
  | encOut => exact absurd rfl henc
  | caps => exact caps_toNat hP s
  | status =>
    obtain ⟨⟨_, hsmax⟩, _, hemax⟩ := hP
    exact status_toNat (by omega) (by omega)
  | errInfo => exact errInfoWord_toNat P s
  | cur =>
    simp only [readValue, toNat_append_eq_add, BitVec.toNat_ofNat, registerNumber]
    omega
  | err | cfg | root =>
    simp only [readValue, toNat_append_eq_add, BitVec.toNat_ofNat, registerNumber]
    omega
  | _ => rfl

/-- Settles O51: such a read only appends its value, and the value is the table's, word by word. -/
theorem plainReadsReturnTheTable : Obligations.PlainReadsReturnTheTable := by
  intro s r rest hfit hsym henc ha
  refine ⟨readValue Config.params r s, ?step, readValue_toNat params_inRange hfit.sym hfit.enc hsym henc⟩
  case step => rw [step_read ha, hostRead_of_ne hsym henc, readValue_agenda]

/-! ### The two pops -/

/-- V and the oldest symbol. -/
theorem readValue_symOut_cons {y : Sym} {ys : List Sym} (h : s.symFifo = y :: ys) (P : Params) :
    (readValue P .symOut s).toNat = 0x80000000 + y.toNat := by
  simp only [readValue, h, toNat_append_eq_add, BitVec.toNat_ofNat]; omega

theorem bitChar_toNat (b : Bool) : (bitChar b).toNat = if b = false then 0x30 else 0x31 := by cases b <;> rfl

/-- V and the character of the oldest bit. -/
theorem readValue_encOut_cons {b : Bool} {bs : List Bool} (h : s.encFifo = b :: bs) (P : Params) :
    (readValue P .encOut s).toNat = 0x80000000 + (if b = false then 0x30 else 0x31) := by
  simp only [readValue, h, toNat_append_eq_add, bitChar_toNat, BitVec.toNat_ofNat]; omega

theorem hostRead_symOut_nil (h : s.symFifo = []) (P : Params) :
    hostRead P .symOut s = { s with reads := s.reads ++ [0#32] } := by
  cases s; cases h; rfl

theorem hostRead_encOut_nil (h : s.encFifo = []) (P : Params) :
    hostRead P .encOut s = { s with reads := s.reads ++ [0#32] } := by
  cases s; cases h; rfl

theorem hostRead_symOut_cons {y : Sym} {ys : List Sym} (h : s.symFifo = y :: ys) (P : Params) :
    hostRead P .symOut s = { s with symFifo := ys, reads := s.reads ++ [readValue P .symOut s] } := by
  simp only [hostRead, readEffect, h, List.tail_cons]

theorem hostRead_encOut_cons {b : Bool} {bs : List Bool} (h : s.encFifo = b :: bs) (P : Params) :
    hostRead P .encOut s = { s with encFifo := bs, reads := s.reads ++ [readValue P .encOut s] } := by
  simp only [hostRead, readEffect, h, List.tail_cons]

/-- STATUS bit 8 is DEC_IN_RDY: there is room for a symbol. -/
theorem status_decInRdy (P : Params) (s : State) :
    (status P s).getLsbD 8 = decide (s.symFifo.length < P.symFifoDepth) := by
  simp only [status, BitVec.getLsbD_append]; simp

/-- Settles O52: each pop by what its FIFO holds, and DEC_IN_RDY because the FIFO without its oldest symbol is shorter than
its depth. -/
theorem popsReturnTheOldestElement : Obligations.PopsReturnTheOldestElement := by
  intro s rest
  refine ⟨fun ha => ⟨fun hnil => ?symEmpty, fun y ys hcons =>
      ⟨readValue Config.params .symOut s, _, ?symStep, rfl, readValue_symOut_cons hcons _, fun hfit => ?ready⟩⟩,
    fun ha => ⟨fun hnil => ?encEmpty, fun b bs hcons =>
      ⟨readValue Config.params .encOut s, readValue_encOut_cons hcons _, ?encStep⟩⟩⟩
  case symEmpty => rw [step_read ha, hostRead_symOut_nil (s := { s with agenda := rest }) hnil]
  case symStep => rw [step_read ha, hostRead_symOut_cons (s := { s with agenda := rest }) hcons, readValue_agenda]
  case ready =>
    have hlen := hfit.sym
    rw [hcons, List.length_cons] at hlen
    rw [status_decInRdy]
    exact decide_eq_true hlen
  case encEmpty => rw [step_read ha, hostRead_encOut_nil (s := { s with agenda := rest }) hnil]
  case encStep => rw [step_read ha, hostRead_encOut_cons (s := { s with agenda := rest }) hcons, readValue_agenda]

/-! ### Writes elsewhere -/

/-- Taking an error, with the latch as `firstError` names it. -/
theorem raise_eq_firstError (e : Err) (opc : BitVec 4) (d1 d2 : Byte) (s : State) :
    raise e opc d1 d2 s
      = { s with err := s.err ||| errFlag e, errInfo := firstError s opc d2 d1 (errCode e) } := rfl

/-- A register's offset is 4 times its index. -/
theorem regOffset_eq (r : Reg) : regOffset r = BitVec.ofNat 8 (4 * (regIndex r).toNat) := by cases r <;> rfl

/-- Settles O53: the write only raises BAD_ADDR, with the register's offset in the latch. -/
theorem writeElsewhereRaisesBadAddr : Obligations.WriteElsewhereRaisesBadAddr := by
  intro s r d rest hr ha
  rw [step_of_case (.badAddr r d rest ha hr), raise_eq_firstError, regOffset_eq]
  rfl

end Sys2Proof.Machine

/-! SUPPORT. The host reference software (45_host_reference.md): what the frequency table holds. -/

namespace Sys2Proof.Machine

/-- An entry of the table comes from one number below 128: that number as a symbol, with its count, which is above 0. -/
theorem mem_frequencyTable_iff_exists (x : List Byte) (y : Sym) (n : Nat) :
    (y, n) ∈ frequencyTable x ↔ ∃ k < Config.numSyms,
      0 < n ∧ BitVec.ofNat 7 k = y ∧ n = x.countP (fun b => b.toNat = k) := by
  simp only [frequencyTable, List.mem_filterMap, List.mem_range]
  refine exists_congr fun k => and_congr_right fun _ => ?_
  split
  case isTrue hzero => exact iff_of_false nofun fun ⟨hpos, _, hn⟩ => hpos.ne' (hn.trans hzero)
  case isFalse hcount =>
    rw [Option.some_inj, Prod.mk.injEq, eq_comm (b := n)]
    exact (and_iff_right_of_imp fun ⟨_, hn⟩ => hn ▸ Nat.pos_of_ne_zero hcount).symm

/-- The only number below 128 whose symbol is `y` is `y.toNat`, so `y` has the count of the bytes equal to `y`. -/
theorem mem_frequencyTable (x : List Byte) (y : Sym) (n : Nat) :
    (y, n) ∈ frequencyTable x ↔ 0 < n ∧ n = x.countP (fun b => b.toNat = y.toNat) := by
  rw [mem_frequencyTable_iff_exists]
  constructor
  · rintro ⟨k, hk, hpos, rfl, hn⟩
    rw [BitVec.toNat_ofNat, Nat.mod_eq_of_lt (b := 2 ^ 7) hk]
    exact ⟨hpos, hn⟩
  · rintro ⟨hpos, hn⟩
    exact ⟨y.toNat, y.isLt, hpos, (BitVec.ofNat_toNat 7 y).trans y.setWidth_eq, hn⟩

/-- With no byte to count, every count is 0. -/
theorem frequencyTable_nil : frequencyTable [] = [] :=
  List.eq_nil_iff_forall_not_mem.mpr fun (y, n) hmem =>
    have ⟨hpos, hn⟩ := (mem_frequencyTable [] y n).mp hmem
    hpos.ne' hn

/-- Settles O55: membership by the number each entry comes from, and the empty input because every count is 0. -/
theorem frequencyTableCountsTheSymbols : Obligations.FrequencyTableCountsTheSymbols :=
  ⟨mem_frequencyTable, frequencyTable_nil⟩

end Sys2Proof.Machine

/-! SUPPORT. The statement about taking an error (60_exceptions.md R132): the flag bit by bit, and which opcode a step
records. What each operation can do to the error record comes first. -/

namespace Sys2Proof.Machine

variable {s t : State}

/-! ### The flag of an error -/

theorem errCode_pos (e : Err) : 0 < (errCode e).toNat := by cases e <;> decide

/-- The flag of an error is the bit one below its code. -/
theorem errFlag_getLsbD (e : Err) {k : Nat} (hk : k < 11) :
    (errFlag e).getLsbD k = decide (k + 1 = (errCode e).toNat) := by
  have hpos := errCode_pos e
  rw [errFlag, ← BitVec.twoPow_eq, BitVec.getLsbD_twoPow, ← Bool.decide_and, decide_eq_decide]
  omega

theorem raise_err_getLsbD (e : Err) (opc : BitVec 4) (d1 d2 : Byte) (s : State) {k : Nat} (hk : k < 11) :
    (raise e opc d1 d2 s).err.getLsbD k = (s.err.getLsbD k || decide (k + 1 = (errCode e).toNat)) := by
  rw [raise_err, BitVec.getLsbD_or, errFlag_getLsbD e hk]

/-! ### What an operation does to the error record -/

/-- Everything an operation other than CLR_ERR and a reset does to the error record: it keeps the record, or takes one
error with the opcode `opc`. -/
inductive RecordCase (opc : BitVec 4) (s t : State) : Prop where
  | kept (herr : t.err = s.err) (hinfo : t.errInfo = s.errInfo)
  | raised (e : Err) (d1 d2 : Byte) (herr : t.err = (raise e opc d1 d2 s).err)
      (hinfo : t.errInfo = (raise e opc d1 d2 s).errInfo)

/-- What is latched on an empty latch has the opcode of the operation. -/
theorem RecordCase.opc_of_latched {opc : BitVec 4} (h : RecordCase opc s t) (hs : s.errInfo.v = false)
    (ht : t.errInfo.v = true) : t.errInfo.opc = opc := by
  cases h with
  | kept _ hinfo => rw [hinfo, hs] at ht; cases ht
  | raised e d1 d2 _ hinfo => rw [hinfo, raise_errInfo, hs]; rfl

theorem raise_recordCase (e : Err) (opc : BitVec 4) (d1 d2 : Byte) (s : State) :
    RecordCase opc s (raise e opc d1 d2 s) := .raised e d1 d2 rfl rfl

theorem applyWalk_recordCase (opc : BitVec 4) (r : WalkResult) (s : State) : RecordCase opc s (applyWalk opc r s) := by
  cases r with
  | abort e d1 d2 => exact .raised e d1 d2 rfl rfl
  | _ => exact .kept rfl rfl

theorem bodyDecChr_recordCase (P : Params) (ch : Byte) (s : State) :
    RecordCase (opcode (.decChr ch)) s (bodyDecChr P ch s) := by
  rcases bodyDecChr_cases P ch s with ⟨_, hb⟩ | ⟨_, _, hb⟩ | ⟨_, _, hb⟩ <;> rw [hb]
  · exact .kept rfl rfl
  · exact raise_recordCase _ _ _ _ s
  · exact applyWalk_recordCase _ _ s

theorem bodyDecEnd_recordCase (s : State) : RecordCase (opcode .decEnd) s (bodyDecEnd s) := by
  by_cases h : s.decState = .walk ∧ s.depth ≠ 0 ∧ strictEnd s.cfg = true
  · rw [bodyDecEnd_truncated h]; exact .raised .truncated s.cur s.depth rfl rfl
  · rw [bodyDecEnd_plain h]; exact .kept rfl rfl

theorem bodyEncSym_recordCase (P : Params) (b : Byte) (s : State) :
    RecordCase (opcode (.encSym b)) s (bodyEncSym P b s) := by
  rcases bodyEncSym_cases P b s with ⟨_, hb⟩ | ⟨_, _, hb⟩ | ⟨_, c, _, ⟨_, hb⟩ | ⟨_, hb⟩⟩ <;> rw [hb]
  · exact .kept rfl rfl
  · exact .raised .unmapped b 0 rfl rfl
  · exact raise_recordCase _ _ _ _ s
  · exact .kept rfl rfl

/-- CLR_ERR alone empties the error record; every other command's body raises with the command's opcode or not at
all. -/
theorem bodyOf_recordCase {i : Instr} (hi : i ≠ .clrErr) (s : State) : RecordCase (opcode i) s (bodyOf i s) := by
  cases i with
  | clrErr => exact absurd rfl hi
  | decChr ch => exact bodyDecChr_recordCase _ ch s
  | decEnd => exact bodyDecEnd_recordCase s
  | encSym b => exact bodyEncSym_recordCase _ b s
  | _ => exact .kept rfl rfl

theorem passesChecks_clrErr (s : State) : passesChecks s .clrErr := ⟨.inr rfl, rfl⟩

/-- The two rejections of the pipeline record the command's opcode, as its body does. -/
theorem issue_recordCase {i : Instr} (hi : i ≠ .clrErr) (s : State) : RecordCase (opcode i) s (issue i (bodyOf i) s) := by
  rcases issue_cases i (bodyOf i) s with ⟨_, _, hr⟩ | ⟨_, _, hr⟩ | ⟨_, hb⟩
  · rw [hr]; exact raise_recordCase _ _ _ _ s
  · rw [hr]; exact raise_recordCase _ _ _ _ s
  · rw [hb]; exact bodyOf_recordCase hi s

theorem engineStep_recordCase (s : State) : RecordCase engineOpcode s (engineStep s) := by
  rcases engineStep_cases s with ⟨tbl, _, h⟩ | ⟨i, sub, _, h⟩ <;> rw [h]
  · exact .kept rfl rfl
  · exact .raised .treeMalformed i sub rfl rfl

/-! ### The opcode a step records -/

/-- A word written to CMD records its own opcode, whether it decodes or not. -/
theorem opc_of_execute {w : Word} (h : execute w s = .next t) (hs : s.errInfo.v = false) (ht : t.errInfo.v = true) :
    t.errInfo.opc = wordOpcode w := by
  cases hd : decode w with
  | error e =>
    rw [execute_error hd] at h; cases h
    exact (raise_recordCase _ _ _ _ s).opc_of_latched hs ht
  | ok i =>
    rw [execute_ok hd] at h; cases h
    by_cases hi : i = .clrErr
    · subst hi
      rw [issue_passes (passesChecks_clrErr s)] at ht
      cases ht
    · rw [← opcode_of_decode_ok hd]
      exact (issue_recordCase hi s).opc_of_latched hs ht

theorem step_of_nextCommand {w : Word} (h : step s = .next t) (hw : nextCommand s = some w) :
    execute w { s with agenda := s.agenda.tail } = .next t := by
  obtain ⟨rest, ha⟩ := nextCommand_eq_some hw
  rw [step_cons ha] at h
  rw [ha, List.tail_cons]
  exact h

theorem step_of_nextIsEngine (h : step s = .next t) (he : nextIsEngine s) :
    t = engineStep { s with agenda := s.agenda.tail } := by
  obtain ⟨hb, ha | ha⟩ := he
  · rw [step_nil ha, engineTurn_busy hb] at h
    cases h
    rw [ha, List.tail_nil, ← ha]
  · obtain ⟨rest, ha⟩ := List.head?_eq_some_iff.1 ha
    rw [step_cons ha] at h
    cases h
    rw [ha, List.tail_cons]
    exact engineTurn_busy hb

/-- Settles O18: the flag bit by bit and the rest by what `raise` writes; the opcode a step latches by what the step's
operation can do to the error record. -/
theorem raiseLatchesTheFirstError : Obligations.RaiseLatchesTheFirstError := by
  refine ⟨fun e opc d1 d2 s => ⟨fun k hk => raise_err_getLsbD e opc d1 d2 s hk, raise_eq_firstError e opc d1 d2 s⟩,
    fun s t h hs ht => ⟨fun w hw => ?command, fun he => ?engine, fun r d rest ha hr => ?elsewhere⟩⟩
  case command => exact opc_of_execute (step_of_nextCommand h hw) hs ht
  case engine =>
    rw [step_of_nextIsEngine h he] at ht ⊢
    exact (engineStep_recordCase _).opc_of_latched hs ht
  case elsewhere =>
    rw [step_of_case (.badAddr r d rest ha hr)] at h
    cases h
    exact (raise_recordCase _ _ _ _ _).opc_of_latched hs ht

end Sys2Proof.Machine

/-! SUPPORT. The two directions of 30_encoding.md R76, the words that spell no command (R75), and the sample words. -/

namespace Sys2Proof

/-! ### Encoding, then decoding -/

/-- A field of a word by the numbers of both. -/
theorem extractLsb'_eq_iff {m k n : Nat} {w : BitVec m} {x : BitVec n} :
    w.extractLsb' k n = x ↔ w.toNat / 2 ^ k % 2 ^ n = x.toNat := by
  rw [BitVec.toNat_eq, BitVec.extractLsb'_toNat, Nat.shiftRight_eq_div_pow]

theorem extractLsb'_eq_zero_iff {m k n : Nat} {w : BitVec m} : w.extractLsb' k n = 0 ↔ w.toNat / 2 ^ k % 2 ^ n = 0 :=
  extractLsb'_eq_iff (x := 0#n)

theorem extractLsb'_eq_one_iff {m k : Nat} {w : BitVec m} : w.extractLsb' k 1 = 1 ↔ w.toNat / 2 ^ k % 2 = 1 :=
  extractLsb'_eq_iff (x := 1#1)

theorem operandBits_toNat_nodeWr (idx : NodeIdx) (node : Node) :
    (operandBits (.nodeWr idx node)).toNat = 2 ^ 20 * idx.toNat + (nodeBits node).toNat := by
  simp only [operandBits, toNat_append_eq_add, BitVec.toNat_ofNat]; omega

theorem operandBits_toNat_codeRd (y : Sym) (p : BitVec 3) :
    (operandBits (.codeRd y p)).toNat = 2 ^ 8 * p.toNat + y.toNat := by
  simp only [operandBits, toNat_append_eq_add, BitVec.toNat_ofNat]; omega

/-- The word of a command as a number. -/
theorem encode_toNat (i : Instr) : (encode i).toNat = 2 ^ 28 * (opcode i).toNat + (operandBits i).toNat := by
  rw [encode, toNat_append_eq_add, Nat.mul_comm]

/-- The two fields of a command's operands that meet at bit `n`, in its word. -/
theorem encode_twoFields {i : Instr} {m n : Nat} {y : BitVec m} {x : BitVec n} (hmn : m + n = 28)
    (h : operandBits i = (y ++ x).cast hmn) :
    (encode i).extractLsb' n m = y ∧ (encode i).extractLsb' 0 n = x := by
  obtain ⟨_, hop⟩ := Laws.encodedFields_all i
  have hfield : ∀ {k l : Nat}, k + l ≤ 28 → (encode i).extractLsb' k l = (y ++ x).extractLsb' k l := fun hkl => by
    rw [← BitVec.extractLsb'_extractLsb'_of_le hkl, hop, h, BitVec.extractLsb'_cast]
  exact ⟨(hfield (by omega)).trans BitVec.extractLsb'_append_eq_left,
    (hfield (by omega)).trans BitVec.extractLsb'_append_eq_right⟩

/-- Format W, field by field. -/
theorem decode_encode_nodeWr (idx : NodeIdx) (node : Node) :
    decode (encode (.nodeWr idx node)) = .ok (.nodeWr idx node) := by
  have hw := encode_toNat (.nodeWr idx node)
  rw [operandBits_toNat_nodeWr, opcode, BitVec.toNat_ofNat] at hw
  rw [decode_nodeWr (wordOpcode_encode _), decodeNodeWr_ok_iff]
  generalize encode (.nodeWr idx node) = w at hw
  cases node with
  | leaf y =>
    rw [nodeBits_leaf_toNat] at hw
    have hidx : w.extractLsb' 20 8 = idx := extractLsb'_eq_iff.2 (by omega)
    have hleaf : w.extractLsb' 16 1 = 1 := extractLsb'_eq_one_iff.2 (by omega)
    have hy : w.extractLsb' 0 7 = y := extractLsb'_eq_iff.2 (by omega)
    rw [if_pos hleaf, hidx, hy]
    exact ⟨extractLsb'_eq_zero_iff.2 (by omega), extractLsb'_eq_zero_iff.2 (by omega), rfl⟩
  | internal l r =>
    rw [nodeBits_internal_toNat] at hw
    have hidx : w.extractLsb' 20 8 = idx := extractLsb'_eq_iff.2 (by omega)
    have hleaf : ¬ w.extractLsb' 16 1 = 1 := by rw [extractLsb'_eq_one_iff]; omega
    have hl : wordByte0 w = l := extractLsb'_eq_iff.2 (by omega)
    have hr : wordByte1 w = r := extractLsb'_eq_iff.2 (by omega)
    rw [if_neg hleaf, hidx, hl, hr]
    exact ⟨extractLsb'_eq_zero_iff.2 (by omega), rfl⟩

/-- Format P, field by field. -/
theorem decode_encode_codeRd (y : Sym) {p : BitVec 3} (h : p.toNat ≤ 4) :
    decode (encode (.codeRd y p)) = .ok (.codeRd y p) := by
  have hw := encode_toNat (.codeRd y p)
  rw [operandBits_toNat_codeRd, opcode, BitVec.toNat_ofNat] at hw
  rw [decode_codeRd (wordOpcode_encode _), decodeCodeRd_ok_iff]
  generalize encode (.codeRd y p) = w at hw
  have hy : w.extractLsb' 0 7 = y := extractLsb'_eq_iff.2 (by omega)
  have hp : w.extractLsb' 8 3 = p := extractLsb'_eq_iff.2 (by omega)
  rw [hy, hp]
  exact ⟨⟨extractLsb'_eq_zero_iff.2 (by omega), extractLsb'_eq_zero_iff.2 (by omega), h⟩, rfl⟩

/-- Settles O9: formats W and P field by field, the formats with one operand by their two fields, the format without by
its operand bits. -/
theorem decodeOfEncodeIsTheCommand : Obligations.DecodeOfEncodeIsTheCommand := by
  intro i h
  cases i with
  | nodeWr idx node => exact decode_encode_nodeWr idx node
  | codeRd y p => exact decode_encode_codeRd y (of_decide_eq_true h)
  | setCfg flags =>
    have hfields := encode_twoFields (i := .setCfg flags) (m := 23) rfl rfl
    simp only [decode, wordOpcode_encode, opcode]
    exact ifReservedZero_ok.2 ⟨hfields.1, congrArg _ hfields.2⟩
  | setRoot x | nodeRd x | decChr x | encSym x =>
    simp only [decode, wordOpcode_encode, opcode]
    exact ifReservedZero_ok.2
      ⟨(encode_twoFields (m := 20) rfl rfl).1, congrArg _ (encode_twoFields (m := 20) rfl rfl).2⟩
  | _ =>
    simp only [decode, wordOpcode_encode, opcode]
    exact ifReservedZero_ok.2 ⟨(Laws.encodedFields_all _).2, rfl⟩

/-! ### Decoding, then encoding -/

/-- A word is its opcode and its operand bits. -/
theorem encode_eq_of_operandBits {w : Word} {i : Instr} (hop : opcode i = wordOpcode w)
    (h : operandBits i = w.extractLsb' 0 28) : encode i = w := by
  rw [encode, hop, h]
  exact BitVec.extractLsb'_append_extractLsb'

/-- The operand bits when those from `n` on are reserved. -/
theorem operand_eq_of_reserved {w : Word} {m n : Nat} (hmn : m + n = 28) (h : w.extractLsb' n m = 0) :
    (0#m ++ w.extractLsb' 0 n).cast hmn = w.extractLsb' 0 28 := by
  rw [extractLsb'_eq_zero_iff] at h
  apply BitVec.eq_of_toNat_eq
  rw [BitVec.toNat_cast, toNat_append_eq_add, BitVec.extractLsb'_toNat, BitVec.extractLsb'_toNat, ← hmn, Nat.pow_add,
    Nat.mul_comm (2 ^ m), Nat.mod_mul, Nat.shiftRight_zero, h, BitVec.toNat_ofNat, Nat.zero_mod, Nat.zero_mul,
    Nat.mul_zero, Nat.add_comm]

theorem encode_of_decodeNodeWr {w : Word} {i : Instr} (hop : opcode i = wordOpcode w) (h : decodeNodeWr w = .ok i) :
    encode i = w := by
  obtain ⟨hres, hi⟩ := decodeNodeWr_ok_iff.1 h
  refine encode_eq_of_operandBits hop (BitVec.eq_of_toNat_eq ?_)
  rw [extractLsb'_eq_zero_iff] at hres
  split at hi
  case isTrue hleaf =>
    obtain ⟨hpad, rfl⟩ := hi
    rw [extractLsb'_eq_zero_iff] at hpad
    rw [extractLsb'_eq_one_iff] at hleaf
    rw [operandBits_toNat_nodeWr, nodeBits_leaf_toNat]
    simp only [BitVec.extractLsb'_toNat, Nat.shiftRight_eq_div_pow]
    omega
  case isFalse hleaf =>
    subst hi
    rw [extractLsb'_eq_one_iff] at hleaf
    rw [operandBits_toNat_nodeWr, nodeBits_internal_toNat, wordByte0, wordByte1]
    simp only [BitVec.extractLsb'_toNat, Nat.shiftRight_eq_div_pow]
    omega

theorem encode_of_decodeCodeRd {w : Word} {i : Instr} (hop : opcode i = wordOpcode w) (h : decodeCodeRd w = .ok i) :
    encode i = w := by
  obtain ⟨⟨hhi, hbit, _⟩, rfl⟩ := decodeCodeRd_ok_iff.1 h
  rw [extractLsb'_eq_zero_iff] at hhi hbit
  refine encode_eq_of_operandBits hop (BitVec.eq_of_toNat_eq ?_)
  rw [operandBits_toNat_codeRd]
  simp only [BitVec.extractLsb'_toNat, Nat.shiftRight_eq_div_pow]
  omega

theorem wellFormed_of_decodeNodeWr {w : Word} {i : Instr} (h : decodeNodeWr w = .ok i) : i.wellFormed = true := by
  obtain ⟨_, hi⟩ := decodeNodeWr_ok_iff.1 h
  split at hi
  · obtain ⟨_, rfl⟩ := hi; rfl
  · subst hi; rfl

theorem wellFormed_of_decodeCodeRd {w : Word} {i : Instr} (h : decodeCodeRd w = .ok i) : i.wellFormed = true := by
  obtain ⟨⟨_, _, hp⟩, rfl⟩ := decodeCodeRd_ok_iff.1 h
  exact decide_eq_true hp

/-- Settles O10: the command has the word's opcode, and its operand bits are the word's because the reserved ones are
0. -/
theorem acceptedWordIsAnEncoding : Obligations.AcceptedWordIsAnEncoding := by
  intro w i h
  have hop := opcode_of_decode_ok h
  unfold decode at h
  split at h
  case h_5 => exact ⟨encode_of_decodeNodeWr hop h, wellFormed_of_decodeNodeWr h⟩
  case h_9 => exact ⟨encode_of_decodeCodeRd hop h, wellFormed_of_decodeCodeRd h⟩
  case h_16 => cases h
  case h_4 =>
    obtain ⟨hres, rfl⟩ := ifReservedZero_ok.1 h
    exact ⟨encode_eq_of_operandBits hop (operand_eq_of_reserved (m := 23) rfl hres), rfl⟩
  case h_6 | h_7 | h_11 | h_14 =>
    obtain ⟨hres, rfl⟩ := ifReservedZero_ok.1 h
    exact ⟨encode_eq_of_operandBits hop (operand_eq_of_reserved (m := 20) rfl hres), rfl⟩
  all_goals
    obtain ⟨hres, rfl⟩ := ifReservedZero_ok.1 h
    exact ⟨encode_eq_of_operandBits hop hres.symm, rfl⟩

/-! ### Words that spell no command, and the samples -/

/-- A word that spells no row is refused: BAD_OPCODE for opcode 0xF, else BAD_OPERAND. -/
theorem decode_of_spells_false {w : Word} (h : ∀ row ∈ opcodeMap, spells w row = false) :
    decode w = .error (if wordOpcode w = 0xF#4 then .badOpcode else .badOperand) := by
  obtain ⟨hrows, hrow, _⟩ := acceptedWordsAreTheOpcodeMap w
  cases hd : decode w with
  | ok i =>
    obtain ⟨row, hmem, hopc⟩ := hrow i hd
    have hspells := (hrows row hmem).2 ⟨i, hd, hopc.symm⟩
    rw [h row hmem] at hspells
    cases hspells
  | error e =>
    have hbad := decode_badOpcode_iff (w := w)
    cases e with
    | badOpcode => rw [if_pos (hbad.1 hd)]
    | badOperand => rw [if_neg fun hk => by rw [hbad.2 hk] at hd; cases hd]

/-- Settles O8: the decoder evaluated on each word. -/
theorem sampleWordsDecode : Obligations.SampleWordsDecode := by
  unfold Obligations.SampleWordsDecode
  decide

end Sys2Proof

namespace Sys2Proof.Machine

/-- Settles O12: such a word is refused by name, and a refused word only raises its error. -/
theorem illegalWordOnlyRaises : Obligations.IllegalWordOnlyRaises := by
  intro w s h
  have hd := decode_of_spells_false h
  refine ⟨fun (hk : wordOpcode w = 0xF#4) => ?badOpcode, fun (hk : wordOpcode w ≠ 0xF#4) => ?badOperand⟩
  case badOpcode =>
    rw [if_pos hk] at hd
    rw [execute_error hd, raise_eq_firstError, hk]
    rfl
  case badOperand =>
    rw [if_neg hk] at hd
    rw [execute_error hd, raise_eq_firstError]
    rfl

end Sys2Proof.Machine

/-! SUPPORT. The statements about what one command does (40_control.md, 41_tree.md, 42_decode.md,
43_codegen_encode.md): each is the body of an accepted command, or the error a rejected one raises. -/

namespace Sys2Proof.Machine

variable {s : State}

/-! ### The three outcomes of the pipeline, as outcomes of exec -/

/-- An accepted command runs its body. -/
theorem exec_of_passesChecks {i : Instr} (h : passesChecks s i) : exec i s = .next (bodyOf i s) := by
  rw [exec_eq, issue_passes h]

theorem exec_of_busy {i : Instr} (hb : s.busy = true) (he : busyExempt i = false) :
    exec i s = .next (raise .rejBusy (opcode i) 0 0 s) := by
  rw [exec_eq, issue_busy hb he]

theorem exec_of_wrongState {i : Instr} (hb : s.busy = false) (hp : precondition s i = false) :
    exec i s = .next (raise .rejState (opcode i) (statusByte s) 0 s) := by
  rw [exec_eq, issue_wrongState (.inl hb) hp]

/-! ### The pipeline -/

/-- Settles O15: the write is taken off the agenda, and its word decodes to the command. -/
theorem stepRunsTheDecodedCommand : Obligations.StepRunsTheDecodedCommand := by
  intro s w rest i ha hd
  rw [step_of_case (.command w i rest ha hd), exec_eq]

theorem busyExempt_eq_false {i : Instr} (hnop : i ≠ .nop) (hclear : i ≠ .clear) (hclr : i ≠ .clrErr) :
    busyExempt i = false := by
  cases i with
  | nop => exact absurd rfl hnop
  | clear => exact absurd rfl hclear
  | clrErr => exact absurd rfl hclr
  | _ => rfl

/-- Settles O16: no other command is exempt from the interlock. -/
theorem busyRejectsAllButThree : Obligations.BusyRejectsAllButThree := by
  intro i s hb hnop hclear hclr
  rw [exec_of_busy hb (busyExempt_eq_false hnop hclear hclr), raise_eq_firstError]
  rfl

/-- The low byte of STATUS is the byte that REJ_STATE records. -/
theorem status_lowByte (P : Params) (s : State) : (status P s).extractLsb' 0 8 = statusByte s :=
  BitVec.extractLsb'_append_eq_right

/-- Settles O17: row by row the precondition is false, and REJ_STATE records the low byte of STATUS. -/
theorem wrongStateRejectsByTheTable : Obligations.WrongStateRejectsByTheTable := by
  intro i s hb h
  have hp : precondition s i = false := by
    rcases h with ⟨⟨idx, n, rfl⟩ | ⟨idx, rfl⟩, hs⟩ | ⟨rfl, hs⟩ | ⟨rfl, hs⟩ | ⟨⟨ch, rfl⟩ | rfl, hs⟩ | ⟨rfl, hs⟩
      | ⟨⟨b, rfl⟩ | rfl, hs⟩
    · exact decide_eq_false hs
    · exact decide_eq_false hs
    · exact decide_eq_false hs
    all_goals simp [precondition, hs]
  rw [exec_of_wrongState hb hp, raise_eq_firstError, status_lowByte]
  rfl

/-! ### The control commands -/

theorem passesChecks_nop (s : State) : passesChecks s .nop := ⟨.inr rfl, rfl⟩

/-- Settles O20: both commands always pass the checks. -/
theorem nopAndClrErrComplete : Obligations.NopAndClrErrComplete :=
  fun s => ⟨exec_of_passesChecks (passesChecks_nop s), exec_of_passesChecks (passesChecks_clrErr s)⟩

/-- Settles O21: SET_CFG has no precondition but the busy interlock. -/
theorem setCfgWritesTheFlags : Obligations.SetCfgWritesTheFlags :=
  fun _ _ hb => exec_of_passesChecks ⟨.inl hb, rfl⟩

/-! ### The tree image -/

theorem passesChecks_nodeWr {idx : NodeIdx} {n : Node} :
    passesChecks s (.nodeWr idx n) ↔ s.busy = false ∧ s.decState = .idle ∧ s.encState = .idle := by
  simp [passesChecks, busyExempt, precondition]

theorem passesChecks_setRoot {idx : NodeIdx} :
    passesChecks s (.setRoot idx) ↔ s.busy = false ∧ s.decState = .idle ∧ s.encState = .idle := by
  simp [passesChecks, busyExempt, precondition]

/-- Settles O23: NODE_WR's body, and the laws of a memory write. -/
theorem nodeWrWritesOneEntry : Obligations.NodeWrWritesOneEntry :=
  fun idx n s hmem hb hd he => ⟨bodyNodeWr idx n s, exec_of_passesChecks (passesChecks_nodeWr.2 ⟨hb, hd, he⟩), rfl,
    readNode_write_same hmem.nodes idx _, fun _ hj => readNode_write_other hj s.nodes _⟩

/-- Settles O24: SET_ROOT's body. -/
theorem setRootNamesTheRoot : Obligations.SetRootNamesTheRoot :=
  fun _ _ hb hd he => exec_of_passesChecks (passesChecks_setRoot.2 ⟨hb, hd, he⟩)

/-- Settles O25: NODE_RD's body, and the node word of each kind of entry. -/
theorem nodeRdReadsTheEntry : Obligations.NodeRdReadsTheEntry := by
  obtain ⟨_, hnone, hleaf, hinternal, _⟩ := nodeWordFormat
  exact fun idx s hb => ⟨nodeWord (readNode s.nodes idx), exec_nodeRd hb idx, fun h => h ▸ hnone,
    fun y h => h ▸ hleaf y, fun l r h => h ▸ hinternal l r⟩

/-! ### The decoder -/

theorem DecState.ne_walk_iff {d : DecState} : d ≠ .walk ↔ d = .idle ∨ d = .aborted := by cases d <;> decide

theorem EncState.ne_active_iff {e : EncState} : e ≠ .active ↔ e = .idle ∨ e = .aborted := by cases e <;> decide

/-- Settles O28: DEC_START's body. -/
theorem decStartOpensACall : Obligations.DecStartOpensACall :=
  fun _ hb hd => exec_of_passesChecks (passesChecks_decStart.2 ⟨hb, DecState.ne_walk_iff.1 hd⟩)

/-- DEC_CHR in WALK with room in the FIFO is what its walk does to the state. -/
theorem bodyDecChr_walk {P : Params} (hs : s.decState = .walk) (hf : s.symFifo.length ≠ P.symFifoDepth) (ch : Byte) :
    bodyDecChr P ch s = applyWalk 0xA#4 (walk s.nodes s.cfg s.cur s.depth ch) s := by
  rw [bodyDecChr, if_neg (by rw [hs]; decide), if_neg hf, opcode]

theorem exec_decChr_walk {ch : Byte} {r : WalkResult} (hb : s.busy = false) (hd : s.decState = .walk)
    (hf : s.symFifo.length ≠ Config.params.symFifoDepth) (hw : walk s.nodes s.cfg s.cur s.depth ch = r) :
    exec (.decChr ch) s = .next (applyWalk 0xA#4 r s) := by
  rw [exec_of_passesChecks (passesChecks_decChr.2 ⟨hb, .inl hd⟩), bodyOf, bodyDecChr_walk hd hf, hw]

/-- The child as the statements write it. -/
theorem childIn_eq_ite (d : Dir) (l r : NodeIdx) : childIn d l r = if d = .left then l else r := by cases d <;> rfl

theorem walkChild_none {nodes : Mem Node} {c : NodeIdx} (h : readNode nodes c = none) (depth : BitVec 8) :
    walkChild nodes depth c = .abort .treeMalformed c 1 := by simp [walkChild, h]

theorem walkChild_leaf {nodes : Mem Node} {c : NodeIdx} {y : Sym} (h : readNode nodes c = some (.leaf y))
    (depth : BitVec 8) : walkChild nodes depth c = .emitAndRestart y := by simp [walkChild, h]

theorem walkChild_internal {nodes : Mem Node} {c l r : NodeIdx} (h : readNode nodes c = some (.internal l r))
    (depth : BitVec 8) :
    walkChild nodes depth c = if 127 ≤ depth.toNat + 1 then .abort .treeMalformed c 2 else .descend c := by
  simp only [walkChild, h]

theorem walk_none {nodes : Mem Node} {cfg : BitVec 5} {cur : NodeIdx} {ch : Byte} (hd : dir ch cfg ≠ none)
    (hn : readNode nodes cur = none) (depth : BitVec 8) :
    walk nodes cfg cur depth ch = .abort .treeMalformed cur 1 := by
  obtain ⟨d, hd⟩ := Option.ne_none_iff_exists'.1 hd
  simp [walk, hd, hn]

theorem walk_leaf_left {nodes : Mem Node} {cfg : BitVec 5} {cur : NodeIdx} {ch : Byte} {y : Sym}
    (hd : dir ch cfg = some .left) (hn : readNode nodes cur = some (.leaf y)) (depth : BitVec 8) :
    walk nodes cfg cur depth ch = .emitAtRoot y := by simp [walk, hd, hn]

theorem walk_leaf_right {nodes : Mem Node} {cfg : BitVec 5} {cur : NodeIdx} {ch : Byte} {y : Sym}
    (hd : dir ch cfg = some .right) (hn : readNode nodes cur = some (.leaf y)) (depth : BitVec 8) :
    walk nodes cfg cur depth ch = .abort .badPath ch 0 := by simp [walk, hd, hn]

/-- Settles O29: the walk reaches a leaf child. -/
theorem decChrEmitsAtALeaf : Obligations.DecChrEmitsAtALeaf := by
  intro ch s d l r y hb hs hf hd hn hc
  rw [← childIn_eq_ite] at hc
  rw [exec_decChr_walk hb hs hf ((walk_internal hd hn).trans (walkChild_leaf hc _))]
  rfl

/-- Settles O30: the walk reaches an internal child within the depth limit. -/
theorem decChrDescends : Obligations.DecChrDescends := by
  intro ch s d l r l' r' hb hs hf hd hn hc hdepth
  rw [← childIn_eq_ite] at hc ⊢
  rw [exec_decChr_walk hb hs hf ((walk_internal hd hn).trans (walkChild_internal hc _)), if_neg (by omega)]
  rfl

/-- Settles O31: the walk stays at a leaf. -/
theorem decChrEmitsAtALeafRoot : Obligations.DecChrEmitsAtALeafRoot := by
  intro ch s y hb hs hf hd hn
  rw [exec_decChr_walk hb hs hf (walk_leaf_left hd hn _)]
  rfl

/-- A DEC_CHR whose walk aborts, as the statement about it writes the state left. -/
theorem exec_decChr_abort {ch : Byte} {e : Err} {d1 d2 : Byte} (hb : s.busy = false) (hs : s.decState = .walk)
    (hf : s.symFifo.length ≠ Config.params.symFifoDepth) (hw : walk s.nodes s.cfg s.cur s.depth ch = .abort e d1 d2) :
    exec (.decChr ch) s = .next { s with
      err := s.err ||| (1#11 <<< ((errCode e).toNat - 1)), errInfo := firstError s 0xA#4 d2 d1 (errCode e)
      decState := .aborted, symFifo := [] } := exec_decChr_walk hb hs hf hw

/-- Settles O32: the aborting branches of the walk, each with its error and details. -/
theorem decChrAborts : Obligations.DecChrAborts := by
  intro ch s c d1 d2 hb hs hf h
  rcases h with ⟨hd, rfl, rfl, rfl⟩ | ⟨hd, hn, rfl, rfl, rfl⟩ | ⟨hd, ⟨y, hn⟩, rfl, rfl, rfl⟩
    | ⟨d, l, r, hd, hn, hd1, rfl, ⟨hc, rfl⟩ | ⟨⟨l', r', hc⟩, hdepth, rfl⟩⟩
  · exact exec_decChr_abort (e := .badChar) hb hs hf (walk_badChar hd)
  · exact exec_decChr_abort (e := .treeMalformed) hb hs hf (walk_none hd hn _)
  · exact exec_decChr_abort (e := .badPath) hb hs hf (walk_leaf_right hd hn _)
  · rw [← childIn_eq_ite] at hd1
    subst hd1
    exact exec_decChr_abort (e := .treeMalformed) hb hs hf ((walk_internal hd hn).trans (walkChild_none hc _))
  · rw [← childIn_eq_ite] at hd1
    subst hd1
    have hdeep : 127 ≤ s.depth.toNat + 1 := by omega
    exact exec_decChr_abort (e := .treeMalformed) hb hs hf
      ((walk_internal hd hn).trans ((walkChild_internal hc _).trans (if_pos hdeep)))

theorem bodyDecChr_ignored (hs : s.decState = .aborted) (P : Params) (ch : Byte) : bodyDecChr P ch s = s := if_pos hs

theorem bodyDecChr_full {P : Params} {ch : Byte} (hs : s.decState = .walk) (hf : s.symFifo.length = P.symFifoDepth) :
    bodyDecChr P ch s = raise .rejFull 0xA#4 (BitVec.ofNat 8 s.symFifo.length) 1 s := by
  rw [bodyDecChr, if_neg (by rw [hs]; decide), if_pos hf, opcode]

/-- Settles O33: REJ_FULL comes before the walk, and ABORTED before both. -/
theorem decChrFullOrIgnored : Obligations.DecChrFullOrIgnored := by
  intro ch s hb
  refine ⟨fun hs hf => ?full, fun hs => ?ignored⟩
  case full =>
    rw [exec_of_passesChecks (passesChecks_decChr.2 ⟨hb, .inl hs⟩), bodyOf, bodyDecChr_full hs hf, raise_eq_firstError]
    rfl
  case ignored =>
    rw [exec_of_passesChecks (passesChecks_decChr.2 ⟨hb, .inr hs⟩)]
    exact congrArg _ (bodyDecChr_ignored hs _ ch)

/-- Settles O34: DEC_END's body. -/
theorem decEndClosesTheCall : Obligations.DecEndClosesTheCall := by
  intro s hb hs
  rw [exec_of_passesChecks (passesChecks_decEnd.2 ⟨hb, DecState.ne_idle_iff.1 hs⟩)]
  rfl

/-! ### The generator and the encoder -/

theorem passesChecks_genTable : passesChecks s .genTable ↔ s.busy = false ∧ s.encState = .idle := by
  simp [passesChecks, busyExempt, precondition]

/-- Settles O37: GEN_TABLE's body. -/
theorem genTableStartsTheEngine : Obligations.GenTableStartsTheEngine :=
  fun _ hb he => exec_of_passesChecks (passesChecks_genTable.2 ⟨hb, he⟩)

/-- A step that is the ENGINE's turn, from the agenda or because nothing is to come. -/
theorem step_engineTurn {rest : List Event} (h : s.agenda = .engine :: rest ∨ (s.agenda = [] ∧ rest = [])) :
    step s = .next (engineTurn { s with agenda := rest }) := by
  rcases h with ha | ⟨ha, rfl⟩
  · exact step_of_case (.turn rest ha)
  · rw [step_nil ha, ← ha]

/-- Settles O39: the ENGINE's turn by `busy`, and its step by what the generator returns. -/
theorem engineStepIsAllOrNothing : Obligations.EngineStepIsAllOrNothing := by
  intro s rest ha
  rw [step_engineTurn ha]
  refine ⟨fun hb tbl hg => ?ok, fun hb i sub hg => ?fail, fun hb => ?idle⟩
  case ok =>
    rw [engineTurn_busy (s := { s with agenda := rest }) hb]
    simp only [engineStep, hg]
  case fail =>
    rw [engineTurn_busy (s := { s with agenda := rest }) hb]
    simp only [engineStep, hg]
    rfl
  case idle => rw [engineTurn_idle (s := { s with agenda := rest }) hb]

/-- Settles O43: CODE_RD's body, and the read-back word part by part. -/
theorem codeRdReadsTheTable : Obligations.CodeRdReadsTheTable := by
  intro y p s _ hb
  refine ⟨codeWord (readCode s.code y) p, exec_codeRd hb y p, fun h => ?none,
    fun c h => ⟨fun hp => ?zero, fun hp i hi => ?part⟩⟩
  case none => rw [h]; rfl
  case zero => rw [h, hp, codeWord_zero]
  case part => rw [h, codeWord_part_getLsbD c hp hi]

/-- Settles O44: ENC_START's body. -/
theorem encStartOpensACall : Obligations.EncStartOpensACall :=
  fun _ hb he => exec_of_passesChecks (passesChecks_encStart.2 ⟨hb, EncState.ne_active_iff.1 he⟩)

theorem readCodeByte_of_lt {b : Byte} (h : b.toNat < 128) (code : Mem Code) :
    readCodeByte code b = code.read b.toNat := if_neg (by omega)

theorem readCodeByte_of_ge {b : Byte} (h : 128 ≤ b.toNat) (code : Mem Code) : readCodeByte code b = none := if_pos h

/-- An ENC_SYM with an encode call open runs its body. -/
theorem exec_encSym_active (b : Byte) (hb : s.busy = false) (hs : s.encState = .active) :
    exec (.encSym b) s = .next (bodyEncSym Config.params b s) :=
  exec_of_passesChecks (passesChecks_encSym.2 ⟨hb, .inl hs⟩)

theorem bodyEncSym_ignored (hs : s.encState = .aborted) (P : Params) (b : Byte) : bodyEncSym P b s = s := if_pos hs

theorem bodyEncSym_push {P : Params} {b : Byte} {c : Code} (hs : s.encState = .active)
    (hc : readCodeByte s.code b = some c) (hfit : s.encFifo.length + c.length ≤ P.encFifoDepth) :
    bodyEncSym P b s = pushCode c s := by
  simp [bodyEncSym, hs, hc, Nat.not_lt.2 hfit]

theorem bodyEncSym_full {P : Params} {b : Byte} {c : Code} (hs : s.encState = .active)
    (hc : readCodeByte s.code b = some c) (hfull : P.encFifoDepth < s.encFifo.length + c.length) :
    bodyEncSym P b s = raise .rejFull 0xD#4 (BitVec.ofNat 8 s.encFifo.length) (BitVec.ofNat 8 c.length) s := by
  simp [bodyEncSym, hs, hc, hfull, opcode]

/-- Settles O45: the branch of ENC_SYM's body for a code that fits. -/
theorem encSymPushesTheWholeCode : Obligations.EncSymPushesTheWholeCode := by
  intro b c s hb hs hlt hc hfit
  rw [← readCodeByte_of_lt hlt] at hc
  rw [exec_encSym_active b hb hs, bodyEncSym_push hs hc hfit]
  rfl

/-- Settles O46: the branch of ENC_SYM's body for a byte without a code. -/
theorem encSymUnmappedAborts : Obligations.EncSymUnmappedAborts := by
  intro b s hb hs h
  have hc : readCodeByte s.code b = none := by
    by_cases hge : 128 ≤ b.toNat
    · exact readCodeByte_of_ge hge _
    · rw [readCodeByte_of_lt (Nat.not_le.1 hge)]
      exact h.resolve_left hge
  rw [exec_encSym_active b hb hs, bodyEncSym_unmapped hs hc]
  rfl

/-- Settles O47: the branch of ENC_SYM's body for a code that does not fit, and the one for ABORTED. -/
theorem encSymFullOrIgnored : Obligations.EncSymFullOrIgnored := by
  intro b s hb
  refine ⟨fun c hs hlt hc hfull => ?full, fun hs => ?ignored⟩
  case full =>
    rw [← readCodeByte_of_lt hlt] at hc
    rw [exec_encSym_active b hb hs, bodyEncSym_full hs hc hfull, raise_eq_firstError]
    rfl
  case ignored =>
    rw [exec_of_passesChecks (passesChecks_encSym.2 ⟨hb, .inr hs⟩)]
    exact congrArg _ (bodyEncSym_ignored hs _ b)

/-- Settles O48: ENC_END's body. -/
theorem encEndClosesTheCall : Obligations.EncEndClosesTheCall :=
  fun _ hb hs => exec_of_passesChecks (passesChecks_encEnd.2 ⟨hb, EncState.ne_idle_iff.1 hs⟩)

end Sys2Proof.Machine

/-! SUPPORT. The generator (43_codegen_encode.md R101, R103): paths of a tree image, what a successful traversal says of
the image and of its table, and the codes of a generated table. -/

namespace Sys2Proof.Machine

variable {nodes : Mem Node} {i j k root l r : NodeIdx} {p q : Code} {y : Sym} {b : Bool}

/-! ### Paths -/

theorem child_of_leaf (h : readNode nodes i = some (.leaf y)) (b : Bool) : child nodes i b = none := by
  simp only [child, h]

theorem child_of_internal (h : readNode nodes i = some (.internal l r)) (b : Bool) :
    child nodes i b = some (if b then r else l) := by simp only [child, h]

/-- Only an internal node has children. -/
theorem internal_of_child (h : child nodes i b = some j) : ∃ l r, readNode nodes i = some (.internal l r) := by
  unfold child at h
  split at h
  case h_1 l r hn => exact ⟨l, r, hn⟩
  case h_2 => cases h

theorem pathTo_nil_iff : PathTo nodes i [] j ↔ j = i := by
  constructor
  · intro h; cases h; rfl
  · rintro rfl; exact .here _

theorem pathTo_cons_iff : PathTo nodes i (b :: p) k ↔ ∃ j, child nodes i b = some j ∧ PathTo nodes j p k := by
  constructor
  · intro h; cases h with | down _ hc hp => exact ⟨_, hc, hp⟩
  · rintro ⟨j, hc, hp⟩; exact .down b hc hp

theorem pathTo_append_iff : PathTo nodes i (p ++ q) k ↔ ∃ j, PathTo nodes i p j ∧ PathTo nodes j q k := by
  induction p generalizing i with
  | nil => simp [pathTo_nil_iff]
  | cons b p ih =>
    simp only [List.cons_append, pathTo_cons_iff, ih]
    exact ⟨fun ⟨m, hc, j, hp, hq⟩ => ⟨j, ⟨m, hc, hp⟩, hq⟩, fun ⟨j, ⟨m, hc, hp⟩, hq⟩ => ⟨m, hc, j, hp, hq⟩⟩

theorem pathTo_concat_iff : PathTo nodes i (p ++ [b]) k ↔ ∃ j, PathTo nodes i p j ∧ child nodes j b = some k := by
  simp [pathTo_append_iff, pathTo_cons_iff, pathTo_nil_iff]

/-- A path has one end. -/
theorem PathTo.end_unique (hj : PathTo nodes i p j) (hk : PathTo nodes i p k) : j = k := by
  induction hj with
  | here => exact (pathTo_nil_iff.1 hk).symm
  | down b hc _ ih =>
    obtain ⟨m, hc', hp'⟩ := pathTo_cons_iff.1 hk
    rw [hc, Option.some_inj] at hc'
    exact ih (hc' ▸ hp')

/-- No path leads on from a leaf. -/
theorem PathTo.of_leaf (h : readNode nodes i = some (.leaf y)) (hp : PathTo nodes i p j) : p = [] ∧ j = i := by
  cases hp with
  | here => exact ⟨rfl, rfl⟩
  | down b hc => rw [child_of_leaf h] at hc; cases hc

/-- A path from an internal node goes on in one of its children. -/
theorem pathTo_cons_of_internal (h : readNode nodes i = some (.internal l r)) :
    PathTo nodes i (b :: p) k ↔ PathTo nodes (if b then r else l) p k := by
  simp [pathTo_cons_iff, child_of_internal h]

theorem reachable_iff_pathTo : Reachable nodes root i ↔ ∃ p, PathTo nodes root p i := by
  constructor
  · intro h
    induction h with
    | root => exact ⟨[], .here _⟩
    | step b _ hc ih =>
      obtain ⟨p, hp⟩ := ih
      exact ⟨p ++ [b], pathTo_concat_iff.2 ⟨_, hp, hc⟩⟩
  · rintro ⟨p, hp⟩
    induction p using List.reverseRecOn generalizing i with
    | nil => rw [pathTo_nil_iff.1 hp]; exact .root
    | append_singleton p b ih =>
      obtain ⟨j, hj, hc⟩ := pathTo_concat_iff.1 hp
      exact .step b (ih hj) hc

/-! ### What the traversal finds -/

/-- The path `p` leads from the entry `i` to a leaf that holds `y`. -/
def LeafAt (nodes : Mem Node) (i : NodeIdx) (p : Code) (y : Sym) : Prop :=
  ∃ j, PathTo nodes i p j ∧ readNode nodes j = some (.leaf y)

/-- Every path from the entry `i` has at most `n` bits and leads to an entry that holds a node. -/
def TreeWithin (nodes : Mem Node) (i : NodeIdx) (n : Nat) : Prop :=
  ∀ p j, PathTo nodes i p j → p.length ≤ n ∧ readNode nodes j ≠ none

/-- No symbol is at the end of two paths from the entry `i`. -/
def LeavesUnique (nodes : Mem Node) (i : NodeIdx) : Prop :=
  ∀ y p q, LeafAt nodes i p y → LeafAt nodes i q y → p = q

/-- The code recorded for a leaf reached by a path (43_codegen_encode.md R101). -/
def codeOfPath (p : Code) : Code := if p = [] then [false] else p

theorem TreeWithin.length_le {n : Nat} (h : TreeWithin nodes i n) (hp : LeafAt nodes i p y) : p.length ≤ n := by
  obtain ⟨j, hj, _⟩ := hp
  exact (h p j hj).1

theorem leafAt_of_leaf {z : Sym} (h : readNode nodes i = some (.leaf y)) : LeafAt nodes i p z ↔ p = [] ∧ z = y := by
  constructor
  · rintro ⟨j, hp, hj⟩
    obtain ⟨rfl, rfl⟩ := hp.of_leaf h
    rw [h] at hj
    cases hj
    exact ⟨rfl, rfl⟩
  · rintro ⟨rfl, rfl⟩; exact ⟨i, .here i, h⟩

theorem not_leafAt_nil (h : readNode nodes i = some (.internal l r)) : ¬ LeafAt nodes i [] y := by
  rintro ⟨j, hp, hj⟩
  rw [pathTo_nil_iff.1 hp, h] at hj
  cases hj

theorem leafAt_cons (h : readNode nodes i = some (.internal l r)) :
    LeafAt nodes i (b :: p) y ↔ LeafAt nodes (if b then r else l) p y := by
  simp only [LeafAt, pathTo_cons_of_internal h]

theorem treeWithin_internal {n : Nat} (h : readNode nodes i = some (.internal l r)) :
    TreeWithin nodes i (n + 1) ↔ TreeWithin nodes l n ∧ TreeWithin nodes r n := by
  constructor
  · intro hi
    have hchild : ∀ b : Bool, TreeWithin nodes (if b then r else l) n := fun b p j hp => by
      obtain ⟨hlen, hj⟩ := hi (b :: p) j ((pathTo_cons_of_internal h).2 hp)
      exact ⟨Nat.le_of_succ_le_succ hlen, hj⟩
    exact ⟨hchild false, hchild true⟩
  · rintro ⟨hl, hr⟩ p j hp
    cases p with
    | nil => rw [pathTo_nil_iff.1 hp, h]; exact ⟨Nat.zero_le _, nofun⟩
    | cons b p =>
      rw [pathTo_cons_of_internal h] at hp
      cases b with
      | false => exact ⟨Nat.succ_le_succ (hl p j hp).1, (hl p j hp).2⟩
      | true => exact ⟨Nat.succ_le_succ (hr p j hp).1, (hr p j hp).2⟩

/-- A tree within `n` levels is a leaf, or an internal node above two trees within one level less. -/
theorem TreeWithin.leaf_or_internal {n : Nat} (h : TreeWithin nodes i n) :
    (∃ y, readNode nodes i = some (.leaf y))
      ∨ ∃ l r m, n = m + 1 ∧ readNode nodes i = some (.internal l r) ∧ TreeWithin nodes l m ∧ TreeWithin nodes r m := by
  match hn : readNode nodes i, n with
  | none, _ => exact absurd hn (h [] i (.here i)).2
  | some (.leaf y), _ => exact .inl ⟨y, rfl⟩
  | some (.internal l r), 0 => exact absurd (h [false] l ((pathTo_cons_of_internal hn).2 (.here l))).1 (by decide)
  | some (.internal l r), m + 1 => exact .inr ⟨l, r, m, rfl, rfl, (treeWithin_internal hn).1 h⟩

/-- What a successful traversal from `i`, reached by `p`, with the table `tbl` before and `tbl'` after it, says of the
image and of the table. -/
structure Visited (nodes : Mem Node) (room : Nat) (i : NodeIdx) (p : Code) (tbl tbl' : Mem Code) : Prop where
  canonical : tbl'.wf Config.numSyms = true
  within : TreeWithin nodes i room
  fresh : ∀ y q, LeafAt nodes i q y → readCode tbl y = none
  unique : LeavesUnique nodes i
  table : ∀ y c, readCode tbl' y = some c ↔ readCode tbl y = some c ∨ ∃ q, LeafAt nodes i q y ∧ c = codeOfPath (p ++ q)

/-- The symbols without a code after a traversal. -/
theorem Visited.readCode_eq_none_iff {room : Nat} {tbl tbl' : Mem Code} (h : Visited nodes room i p tbl tbl') :
    readCode tbl' y = none ↔ readCode tbl y = none ∧ ∀ q, ¬ LeafAt nodes i q y := by
  simp only [Option.eq_none_iff_forall_ne_some, ne_eq, h.table, not_or, not_exists, not_and]
  exact ⟨fun hc => ⟨fun c => (hc c).1, fun q hq => (hc _).2 q hq rfl⟩,
    fun ⟨hc, hq⟩ c => ⟨hc c, fun q hl => absurd hl (hq q)⟩⟩

theorem readCode_write_same {tbl : Mem Code} (h : tbl.wf Config.numSyms = true) (y : Sym) (c : Option Code) :
    readCode (tbl.write y.toNat c) y = c := Mem.read_write_same _ c h

theorem readCode_write_other {z : Sym} (h : z ≠ y) (tbl : Mem Code) (c : Option Code) :
    readCode (tbl.write y.toNat c) z = readCode tbl z :=
  Mem.read_write_other (fun e => h (BitVec.eq_of_toNat_eq e)) c tbl

theorem visitLeaf_eq (i : NodeIdx) (y : Sym) (p : Code) (tbl : Mem Code) :
    visitLeaf i y p tbl
      = if (readCode tbl y).isSome then .fail i 3 else .ok (tbl.write y.toNat (some (codeOfPath p))) := rfl

/-- A leaf visited. -/
theorem Visited.leaf {tbl : Mem Code} (hn : readNode nodes i = some (.leaf y)) (hwf : tbl.wf Config.numSyms = true)
    (hy : readCode tbl y = none) (room : Nat) (p : Code) :
    Visited nodes room i p tbl (tbl.write y.toNat (some (codeOfPath p))) where
  canonical := wf_writeCode hwf y _
  within q j hq := by
    obtain ⟨rfl, rfl⟩ := hq.of_leaf hn
    rw [hn]
    exact ⟨Nat.zero_le _, nofun⟩
  fresh z q hq := by rw [((leafAt_of_leaf hn).1 hq).2, hy]
  unique z q q' hq hq' := by rw [((leafAt_of_leaf hn).1 hq).1, ((leafAt_of_leaf hn).1 hq').1]
  table z c := by
    by_cases hz : z = y
    · subst hz
      simp [readCode_write_same hwf, hy, leafAt_of_leaf hn, eq_comm]
    · simp [readCode_write_other hz, leafAt_of_leaf hn, hz]

/-- An internal node visited: its left subtree, then its right one with the table that leaves. -/
theorem Visited.internal {room : Nat} {tbl tbl₁ tbl' : Mem Code} (hn : readNode nodes i = some (.internal l r))
    (hl : Visited nodes room l (p ++ [false]) tbl tbl₁) (hr : Visited nodes room r (p ++ [true]) tbl₁ tbl') :
    Visited nodes (room + 1) i p tbl tbl' where
  canonical := hr.canonical
  within := (treeWithin_internal hn).2 ⟨hl.within, hr.within⟩
  fresh y q hq := by
    match q with
    | [] => exact absurd hq (not_leafAt_nil hn)
    | false :: q => exact hl.fresh y q ((leafAt_cons hn).1 hq)
    | true :: q => exact (hl.readCode_eq_none_iff.1 (hr.fresh y q ((leafAt_cons hn).1 hq))).1
  unique y q q' hq hq' := by
    have hdisjoint : ∀ {q q'}, LeafAt nodes l q y → ¬ LeafAt nodes r q' y := fun hq hq' =>
      (hl.readCode_eq_none_iff.1 (hr.fresh y _ hq')).2 _ hq
    match q, q' with
    | [], _ => exact absurd hq (not_leafAt_nil hn)
    | _, [] => exact absurd hq' (not_leafAt_nil hn)
    | false :: q, false :: q' => rw [hl.unique y q q' ((leafAt_cons hn).1 hq) ((leafAt_cons hn).1 hq')]
    | true :: q, true :: q' => rw [hr.unique y q q' ((leafAt_cons hn).1 hq) ((leafAt_cons hn).1 hq')]
    | false :: q, true :: q' => exact absurd ((leafAt_cons hn).1 hq') (hdisjoint ((leafAt_cons hn).1 hq))
    | true :: q, false :: q' => exact absurd ((leafAt_cons hn).1 hq) (hdisjoint ((leafAt_cons hn).1 hq'))
  table y c := by
    rw [hr.table, hl.table, or_assoc]
    refine or_congr_right ⟨?_, ?_⟩
    · rintro (⟨q, hq, rfl⟩ | ⟨q, hq, rfl⟩)
      · exact ⟨false :: q, (leafAt_cons hn).2 hq, by simp⟩
      · exact ⟨true :: q, (leafAt_cons hn).2 hq, by simp⟩
    · rintro ⟨q, hq, rfl⟩
      match q with
      | [] => exact absurd hq (not_leafAt_nil hn)
      | false :: q => exact .inl ⟨q, (leafAt_cons hn).1 hq, by simp⟩
      | true :: q => exact .inr ⟨q, (leafAt_cons hn).1 hq, by simp⟩

theorem visited_of_visitLeaf_ok {tbl tbl' : Mem Code} (hn : readNode nodes i = some (.leaf y))
    (hwf : tbl.wf Config.numSyms = true) (h : visitLeaf i y p tbl = .ok tbl') (room : Nat) :
    Visited nodes room i p tbl tbl' := by
  rw [visitLeaf_eq] at h
  split at h
  case isTrue => cases h
  case isFalse hy =>
    cases h
    exact .leaf hn hwf (Option.not_isSome_iff_eq_none.1 hy) room p

/-- What a successful traversal says. -/
theorem visited_of_visit_ok {room : Nat} {tbl tbl' : Mem Code} (hwf : tbl.wf Config.numSyms = true)
    (h : visit nodes room i p tbl = .ok tbl') : Visited nodes room i p tbl tbl' := by
  induction room generalizing i p tbl tbl' with
  | zero =>
    match hn : readNode nodes i with
    | none => rw [visit_none hn] at h; cases h
    | some (.leaf y) => rw [visit_leaf hn] at h; exact visited_of_visitLeaf_ok hn hwf h 0
    | some (.internal l r) => rw [visit_tooDeep hn] at h; cases h
  | succ room ih =>
    match hn : readNode nodes i with
    | none => rw [visit_none hn] at h; cases h
    | some (.leaf y) => rw [visit_leaf hn] at h; exact visited_of_visitLeaf_ok hn hwf h (room + 1)
    | some (.internal l r) =>
      rw [visit_internal hn] at h
      split at h
      case h_1 => cases h
      case h_2 tbl₁ hl =>
        have hleft := ih hwf hl
        exact hleft.internal hn (ih hleft.canonical h)

/-- A traversal succeeds when the subtree is within the depth limit and no symbol of it is met twice. -/
theorem exists_visit_ok {i : NodeIdx} {room : Nat} {tbl : Mem Code} (hwf : tbl.wf Config.numSyms = true)
    (hwithin : TreeWithin nodes i room) (hunique : LeavesUnique nodes i)
    (hfresh : ∀ y q, LeafAt nodes i q y → readCode tbl y = none) (p : Code) :
    ∃ tbl', visit nodes room i p tbl = .ok tbl' := by
  rcases hwithin.leaf_or_internal with ⟨y, hn⟩ | ⟨l, r, m, rfl, hn, hl, hr⟩
  · rw [visit_leaf hn, visitLeaf_eq, hfresh y [] ((leafAt_of_leaf hn).2 ⟨rfl, rfl⟩)]
    exact ⟨_, rfl⟩
  · have hinl : ∀ {q y}, LeafAt nodes l q y → LeafAt nodes i (false :: q) y := (leafAt_cons (b := false) hn).2
    have hinr : ∀ {q y}, LeafAt nodes r q y → LeafAt nodes i (true :: q) y := (leafAt_cons (b := true) hn).2
    obtain ⟨tbl₁, hleft⟩ := exists_visit_ok hwf hl
      (fun y q q' hq hq' => (List.cons.inj (hunique y _ _ (hinl hq) (hinl hq'))).2)
      (fun y q hq => hfresh y _ (hinl hq)) (p ++ [false])
    have hvisited := visited_of_visit_ok hwf hleft
    rw [visit_internal hn, hleft]
    exact exists_visit_ok hvisited.canonical hr
      (fun y q q' hq hq' => (List.cons.inj (hunique y _ _ (hinr hq) (hinr hq'))).2)
      (fun y q hq => hvisited.readCode_eq_none_iff.2 ⟨hfresh y _ (hinr hq), fun q' hq' => by
        cases hunique y _ _ (hinl hq') (hinr hq)⟩) (p ++ [true])
termination_by room

/-- Generation succeeds exactly on the trees within 127 levels whose leaves hold distinct symbols. -/
theorem exists_genTable_ok_iff :
    (∃ tbl, genTable nodes root = .ok tbl) ↔ TreeWithin nodes root 127 ∧ LeavesUnique nodes root := by
  constructor
  · rintro ⟨tbl, h⟩
    have hv := visited_of_visit_ok State.reset_code_wf h
    exact ⟨hv.within, hv.unique⟩
  · rintro ⟨hwithin, hunique⟩
    exact exists_visit_ok State.reset_code_wf hwithin hunique (fun _ _ _ => rfl) []

/-! ### The generated table -/

theorem readCode_genTable {tbl : Mem Code} (h : genTable nodes root = .ok tbl) {c : Code} :
    readCode tbl y = some c ↔ ∃ q, LeafAt nodes root q y ∧ c = codeOfPath q := by
  rw [(visited_of_visit_ok State.reset_code_wf h).table]
  exact or_iff_right nofun

theorem codeOfPath_length {n : Nat} (hn : 1 ≤ n) (h : p.length ≤ n) :
    1 ≤ (codeOfPath p).length ∧ (codeOfPath p).length ≤ n := by
  unfold codeOfPath
  split
  case isTrue => exact ⟨le_rfl, hn⟩
  case isFalse hp => exact ⟨List.length_pos_iff.2 hp, h⟩

/-- Settles O41: the table holds the codes of the paths to the leaves, and those are at most 127 bits long. -/
theorem generatedCodesAreThePaths : Obligations.GeneratedCodesAreThePaths := by
  intro nodes root tbl h y c
  refine ⟨?paths, fun hc => ?lengths⟩
  case paths =>
    rw [readCode_genTable h]
    exact ⟨fun ⟨p, ⟨i, hp, hi⟩, hc⟩ => ⟨p, i, hp, hi, hc⟩, fun ⟨p, i, hp, hi, hc⟩ => ⟨p, ⟨i, hp, hi⟩, hc⟩⟩
  case lengths =>
    obtain ⟨hwithin, _⟩ := exists_genTable_ok_iff.1 ⟨tbl, h⟩
    obtain ⟨q, hq, rfl⟩ := (readCode_genTable h).1 hc
    exact codeOfPath_length (by decide) (hwithin.length_le hq)

/-- A path to a leaf that begins a path to another leaf is that path. -/
theorem LeafAt.eq_of_append {z : Sym} (hp : LeafAt nodes i p y) (hpq : LeafAt nodes i (p ++ q) z) : z = y := by
  obtain ⟨j, hj, hy⟩ := hp
  obtain ⟨k, hk, hz⟩ := hpq
  obtain ⟨m, hm, hq⟩ := pathTo_append_iff.1 hk
  rw [← hj.end_unique hm] at hq
  obtain ⟨_, rfl⟩ := hq.of_leaf hy
  rw [hy] at hz
  cases hz
  rfl

/-- Settles O42: below an internal root the codes are the paths, none of which begins another; a leaf root has one
symbol. -/
theorem generatedCodesArePrefixFree : Obligations.GeneratedCodesArePrefixFree := by
  intro nodes root tbl h y z c d hne hc hd hcd
  obtain ⟨p, hp, rfl⟩ := (readCode_genTable h).1 hc
  obtain ⟨q, hq, rfl⟩ := (readCode_genTable h).1 hd
  match hn : readNode nodes root with
  | none => exact ((exists_genTable_ok_iff.1 ⟨tbl, h⟩).1 [] root (.here root)).2 hn
  | some (.leaf x) => exact hne (((leafAt_of_leaf hn).1 hp).2.trans ((leafAt_of_leaf hn).1 hq).2.symm)
  | some (.internal l r) =>
    have hpath : ∀ {p y}, LeafAt nodes root p y → codeOfPath p = p := fun hp =>
      if_neg fun hnil => not_leafAt_nil hn (hnil ▸ hp)
    rw [hpath hp, hpath hq] at hcd
    obtain ⟨t, rfl⟩ := hcd
    exact hne (hp.eq_of_append hq).symm

end Sys2Proof.Machine

/-! SUPPORT. The loop of 43_codegen_encode.md R101 with its explicit stack: it does what the recursion does, within the
visits of R103 item 1. -/

namespace Sys2Proof.Machine

variable {nodes : Mem Node} {i l r : NodeIdx} {p : Code} {y : Sym} {tbl : Mem Code} {stack : List (NodeIdx × Code)}
  {fuel : Nat}

/-! ### The loop, one visit at a time -/

theorem genLoop_nil (nodes : Mem Node) (fuel : Nat) (tbl : Mem Code) : genLoop nodes fuel [] tbl = some (.ok tbl) := by
  cases fuel <;> rfl

theorem genLoop_none (h : readNode nodes i = none) :
    genLoop nodes (fuel + 1) ((i, p) :: stack) tbl = some (.fail i 1) := by simp [genLoop, h]

theorem genLoop_leaf (h : readNode nodes i = some (.leaf y)) :
    genLoop nodes (fuel + 1) ((i, p) :: stack) tbl =
      if (readCode tbl y).isSome then some (.fail i 3)
      else genLoop nodes fuel stack (tbl.write y.toNat (some (codeOfPath p))) := by simp only [genLoop, h]; rfl

theorem genLoop_internal (h : readNode nodes i = some (.internal l r)) :
    genLoop nodes (fuel + 1) ((i, p) :: stack) tbl =
      if 127 ≤ p.length then some (.fail i 2)
      else genLoop nodes fuel ((l, p ++ [false]) :: (r, p ++ [true]) :: stack) tbl := by simp only [genLoop, h]

/-! ### The visits left -/

/-- The symbols without a code: each leaf visited takes one away. -/
def unmapped (tbl : Mem Code) : Finset Sym := Finset.univ.filter fun y => readCode tbl y = none

theorem unmapped_write (hwf : tbl.wf Config.numSyms = true) (y : Sym) (c : Code) :
    unmapped (tbl.write y.toNat (some c)) = (unmapped tbl).erase y := by
  ext z
  by_cases hz : z = y
  · subst hz; simp [unmapped, readCode_write_same hwf]
  · simp [unmapped, readCode_write_other hz, hz]

theorem card_unmapped_write (hwf : tbl.wf Config.numSyms = true) (hy : readCode tbl y = none) (c : Code) :
    (unmapped (tbl.write y.toNat (some c))).card + 1 = (unmapped tbl).card := by
  rw [unmapped_write hwf]
  exact Finset.card_erase_add_one (Finset.mem_filter.2 ⟨Finset.mem_univ y, hy⟩)

theorem card_sym : Fintype.card Sym = 128 := by rw [← FinEnum.card_eq_fintypeCard]; rfl

theorem unmapped_nil : unmapped [] = Finset.univ := Finset.filter_true_of_mem fun _ _ => rfl

theorem card_unmapped_nil : (unmapped []).card = 128 := by rw [unmapped_nil, Finset.card_univ, card_sym]

/-- The answer `now` of the loop with an entry on top of `stack`, where the traversal from that entry has the result
`res`: the loop fails with it too, or goes on with the rest of the stack, with 128 visits left for each symbol still
without a code and 128 more. -/
def LoopFollows (nodes : Mem Node) (stack : List (NodeIdx × Code)) (now : Option GenResult) (res : GenResult) : Prop :=
  match res with
  | .fail j sub => now = some (.fail j sub)
  | .ok tbl' => ∃ fuel', now = genLoop nodes fuel' stack tbl' ∧ 128 * (unmapped tbl').card + 128 ≤ fuel'

theorem loopFollows_leaf (hn : readNode nodes i = some (.leaf y)) (hwf : tbl.wf Config.numSyms = true)
    (hfuel : 128 * (unmapped tbl).card ≤ fuel) :
    LoopFollows nodes stack (genLoop nodes (fuel + 1) ((i, p) :: stack) tbl) (visitLeaf i y p tbl) := by
  rw [visitLeaf_eq, genLoop_leaf hn]
  split
  case isTrue => rfl
  case isFalse h =>
    have hcard := card_unmapped_write hwf (Option.not_isSome_iff_eq_none.1 h) (codeOfPath p)
    exact ⟨fuel, rfl, by omega⟩

/-- The loop follows the traversal. Between two leaves it visits at most 127 internal nodes, and each leaf takes a
symbol, so the visits suffice: one for each level of `room`, and 128 for each symbol without a code. -/
theorem loopFollows_visit {room : Nat} (hroom : room + p.length = 127) (hwf : tbl.wf Config.numSyms = true)
    (hfuel : 128 * (unmapped tbl).card + room < fuel) :
    LoopFollows nodes stack (genLoop nodes fuel ((i, p) :: stack) tbl) (visit nodes room i p tbl) := by
  induction room generalizing i p tbl stack fuel with
  | zero =>
    obtain ⟨fuel, rfl⟩ := Nat.exists_eq_add_of_lt hfuel
    match hn : readNode nodes i with
    | none => rw [visit_none hn, genLoop_none hn]; rfl
    | some (.leaf y) => rw [visit_leaf hn]; exact loopFollows_leaf hn hwf (by omega)
    | some (.internal l r) => rw [visit_tooDeep hn, genLoop_internal hn, if_pos (by omega)]; rfl
  | succ room ih =>
    obtain ⟨fuel, rfl⟩ := Nat.exists_eq_add_of_lt hfuel
    match hn : readNode nodes i with
    | none => rw [visit_none hn, genLoop_none hn]; rfl
    | some (.leaf y) => rw [visit_leaf hn]; exact loopFollows_leaf hn hwf (by omega)
    | some (.internal l r) =>
      have hlen : ∀ b : Bool, room + (p ++ [b]).length = 127 := fun b => by
        rw [List.length_append, List.length_singleton]; omega
      rw [visit_internal hn, genLoop_internal hn, if_neg (by omega)]
      have hleft := ih (i := l) (stack := (r, p ++ [true]) :: stack) (hlen false) hwf
        (fuel := 128 * (unmapped tbl).card + (room + 1) + fuel) (by omega)
      cases hl : visit nodes room l (p ++ [false]) tbl with
      | fail j sub => rw [hl] at hleft; exact hleft
      | ok tbl₁ =>
        rw [hl] at hleft
        obtain ⟨fuel₁, hgo, hfuel₁⟩ := hleft
        rw [hgo]
        exact ih (hlen true) (visited_of_visit_ok hwf hl).canonical (by omega)

/-- Settles O38: the loop follows the traversal from the root, and stops when the stack is empty. -/
theorem generatorIsTheStackLoop : Obligations.GeneratorIsTheStackLoop := by
  intro nodes root
  have h : LoopFollows nodes [] (genLoop nodes 16512 [(root, [])] []) (genTable nodes root) :=
    loopFollows_visit (tbl := []) rfl rfl (by rw [card_unmapped_nil]; decide)
  cases hg : genTable nodes root with
  | fail j sub => rw [hg] at h; exact h
  | ok tbl =>
    rw [hg] at h
    obtain ⟨fuel, hgo, _⟩ := h
    exact hgo.trans (genLoop_nil nodes fuel tbl)

end Sys2Proof.Machine

/-! SUPPORT. The well-formed tree images (41_tree.md R90) are those on which generation succeeds (43_codegen_encode.md
R103 item 2): both say that the paths from the root form a finite tree whose leaves hold distinct symbols. -/

namespace Sys2Proof.Machine

variable {nodes : Mem Node} {i j root : NodeIdx} {p q : Code} {y : Sym} {b : Bool} {n : Nat}

/-! ### From the tree of paths to R90's conditions -/

theorem TreeWithin.of_pathTo (h : TreeWithin nodes i n) (hp : PathTo nodes i p j) : TreeWithin nodes j n := by
  intro q k hq
  obtain ⟨hlen, hk⟩ := h (p ++ q) k (pathTo_append_iff.2 ⟨j, hp, hq⟩)
  rw [List.length_append] at hlen
  exact ⟨by omega, hk⟩

theorem LeafAt.of_pathTo (hp : PathTo nodes i p j) (h : LeafAt nodes j q y) : LeafAt nodes i (p ++ q) y := by
  obtain ⟨k, hq, hk⟩ := h
  exact ⟨k, pathTo_append_iff.2 ⟨j, hp, hq⟩, hk⟩

/-- A finite tree has a leaf. -/
theorem exists_leafAt {i : NodeIdx} {n : Nat} (h : TreeWithin nodes i n) : ∃ q y, LeafAt nodes i q y := by
  rcases h.leaf_or_internal with ⟨y, hn⟩ | ⟨l, r, m, rfl, hn, hl, _⟩
  · exact ⟨[], y, i, .here i, hn⟩
  · obtain ⟨q, y, hq⟩ := exists_leafAt hl
    exact ⟨false :: q, y, (leafAt_cons hn).2 hq⟩
termination_by n

/-- No entry is at the end of two paths from `i`. -/
def PathsUnique (nodes : Mem Node) (i : NodeIdx) : Prop :=
  ∀ p q j, PathTo nodes i p j → PathTo nodes i q j → p = q

/-- Two paths to an entry go on to the same leaf. -/
theorem LeavesUnique.pathsUnique (hu : LeavesUnique nodes i) (hw : TreeWithin nodes i n) : PathsUnique nodes i := by
  intro p q j hp hq
  obtain ⟨t, y, ht⟩ := exists_leafAt (hw.of_pathTo hp)
  exact List.append_cancel_right (hu y _ _ (ht.of_pathTo hp) (ht.of_pathTo hq))

theorem wellFormedImage_of_tree (hw : TreeWithin nodes root n) (hu : LeavesUnique nodes root) :
    WellFormedImage nodes root := by
  have hpaths := hu.pathsUnique hw
  refine ⟨fun i hi => ?present, fun i hi hne => ?oneParent, fun i b hi hc => ?rootUnnamed,
    fun i j y hi hj hiy hjy => ?distinctSymbols⟩
  case present =>
    obtain ⟨p, hp⟩ := reachable_iff_pathTo.1 hi
    exact (hw p i hp).2
  case oneParent =>
    obtain ⟨p, hp⟩ := reachable_iff_pathTo.1 hi
    cases p using List.reverseRecOn with
    | nil => exact absurd (pathTo_nil_iff.1 hp) hne
    | append_singleton p b =>
      obtain ⟨j, hj, hc⟩ := pathTo_concat_iff.1 hp
      refine ⟨(j, b), ⟨reachable_iff_pathTo.2 ⟨p, hj⟩, hc⟩, ?_⟩
      rintro ⟨j', b'⟩ ⟨hreach, hc'⟩
      obtain ⟨p', hj'⟩ := reachable_iff_pathTo.1 hreach
      obtain ⟨rfl, hb⟩ := List.append_inj' (hpaths _ _ i (pathTo_concat_iff.2 ⟨j', hj', hc'⟩) hp) rfl
      exact Prod.ext (hj'.end_unique hj) (List.singleton_inj.1 hb)
  case rootUnnamed =>
    obtain ⟨p, hp⟩ := reachable_iff_pathTo.1 hi
    have hnil := hpaths _ _ root (pathTo_concat_iff.2 ⟨i, hp, hc⟩) (.here root)
    exact absurd hnil (by simp)
  case distinctSymbols =>
    obtain ⟨p, hp⟩ := reachable_iff_pathTo.1 hi
    obtain ⟨q, hq⟩ := reachable_iff_pathTo.1 hj
    rw [hu y q p ⟨j, hq, hjy⟩ ⟨i, hp, hiy⟩] at hq
    exact hp.end_unique hq

/-! ### From R90's conditions to the tree of paths -/

theorem WellFormedImage.pathsUnique (h : WellFormedImage nodes root) : PathsUnique nodes root := by
  have hroot : ∀ {p b}, ¬ PathTo nodes root (p ++ [b]) root := fun hp => by
    obtain ⟨j, hj, hc⟩ := pathTo_concat_iff.1 hp
    exact h.rootUnnamed j _ (reachable_iff_pathTo.2 ⟨_, hj⟩) hc
  intro p q i hp hq
  induction p using List.reverseRecOn generalizing q i with
  | nil =>
    cases q using List.reverseRecOn with
    | nil => rfl
    | append_singleton q b =>
      rw [pathTo_nil_iff.1 hp] at hq
      exact absurd hq hroot
  | append_singleton p b ih =>
    cases q using List.reverseRecOn with
    | nil =>
      rw [pathTo_nil_iff.1 hq] at hp
      exact absurd hp hroot
    | append_singleton q b' =>
      have hne : i ≠ root := fun hi => hroot (hi ▸ hp)
      obtain ⟨j, hj, hc⟩ := pathTo_concat_iff.1 hp
      obtain ⟨j', hj', hc'⟩ := pathTo_concat_iff.1 hq
      have hparent := (h.oneParent i (reachable_iff_pathTo.2 ⟨_, hp⟩) hne).unique
        (y₁ := (j, b)) (y₂ := (j', b')) ⟨reachable_iff_pathTo.2 ⟨_, hj⟩, hc⟩ ⟨reachable_iff_pathTo.2 ⟨_, hj'⟩, hc'⟩
      cases hparent
      rw [ih q j hj hj']

theorem WellFormedImage.leavesUnique (h : WellFormedImage nodes root) : LeavesUnique nodes root := by
  rintro y p q ⟨i, hp, hi⟩ ⟨j, hq, hj⟩
  rw [← h.distinctSymbols i j y (reachable_iff_pathTo.2 ⟨p, hp⟩) (reachable_iff_pathTo.2 ⟨q, hq⟩) hi hj] at hq
  exact h.pathsUnique p q i hp hq

/-- The entries along a path are distinct. -/
theorem exists_entries_of_pathTo (hu : PathsUnique nodes i) (hp : PathTo nodes i p j) :
    ∃ S : Finset NodeIdx, S.card = p.length + 1 ∧ ∀ k ∈ S, ∃ q, PathTo nodes i q k := by
  induction p generalizing i with
  | nil => exact ⟨{i}, rfl, fun k hk => ⟨[], pathTo_nil_iff.2 (Finset.mem_singleton.1 hk)⟩⟩
  | cons b p ih =>
    obtain ⟨c, hc, hp⟩ := pathTo_cons_iff.1 hp
    have hdown : ∀ {q k}, PathTo nodes c q k → PathTo nodes i (b :: q) k := fun hq => .down b hc hq
    obtain ⟨S, hcard, hS⟩ := ih (fun q q' k hq hq' => (List.cons.inj (hu _ _ k (hdown hq) (hdown hq'))).2) hp
    have hi : i ∉ S := fun hi => by
      obtain ⟨q, hq⟩ := hS i hi
      cases hu _ _ i (hdown hq) (.here i)
    refine ⟨insert i S, by rw [Finset.card_insert_of_notMem hi, hcard, List.length_cons], fun k hk => ?_⟩
    rcases Finset.mem_insert.1 hk with rfl | hk
    · exact ⟨[], .here k⟩
    · obtain ⟨q, hq⟩ := hS k hk
      exact ⟨b :: q, hdown hq⟩

/-- Beside each step of a path there is another leaf. -/
theorem exists_leaves_of_pathTo (hu : LeavesUnique nodes i) (hw : TreeWithin nodes i n) (hp : PathTo nodes i p j) :
    ∃ S : Finset Sym, S.card = p.length + 1 ∧ ∀ y ∈ S, ∃ q, LeafAt nodes i q y := by
  induction p generalizing i with
  | nil =>
    obtain ⟨q, y, hq⟩ := exists_leafAt hw
    exact ⟨{y}, rfl, fun z hz => ⟨q, Finset.mem_singleton.1 hz ▸ hq⟩⟩
  | cons b p ih =>
    obtain ⟨c, hc, hp⟩ := pathTo_cons_iff.1 hp
    obtain ⟨l, r, hn⟩ := internal_of_child hc
    have hstep : PathTo nodes i [b] c := .down b hc (.here c)
    have hdown : ∀ {q y}, LeafAt nodes c q y → LeafAt nodes i (b :: q) y := fun hq => hq.of_pathTo hstep
    have hbeside : PathTo nodes i [!b] _ := .down (!b) (child_of_internal hn (!b)) (.here _)
    obtain ⟨q, y, hq⟩ := exists_leafAt (hw.of_pathTo hbeside)
    obtain ⟨S, hcard, hS⟩ := ih (fun y q q' hq hq' => (List.cons.inj (hu y _ _ (hdown hq) (hdown hq'))).2)
      (hw.of_pathTo hstep) hp
    have hy : y ∉ S := fun hy => by
      obtain ⟨q', hq'⟩ := hS y hy
      have hb := (List.cons.inj (hu y _ _ (hdown hq') (hq.of_pathTo hbeside))).1
      exact absurd hb (by cases b <;> decide)
    refine ⟨insert y S, by rw [Finset.card_insert_of_notMem hy, hcard, List.length_cons], fun z hz => ?_⟩
    rcases Finset.mem_insert.1 hz with rfl | hz
    · exact ⟨_, hq.of_pathTo hbeside⟩
    · obtain ⟨q', hq'⟩ := hS z hz
      exact ⟨b :: q', hdown hq'⟩

theorem card_nodeIdx : Fintype.card NodeIdx = 256 := by rw [← FinEnum.card_eq_fintypeCard]; rfl

theorem WellFormedImage.treeWithin_255 (h : WellFormedImage nodes root) : TreeWithin nodes root 255 := by
  intro p j hp
  obtain ⟨S, hcard, _⟩ := exists_entries_of_pathTo h.pathsUnique hp
  have hle := card_nodeIdx ▸ S.card_le_univ
  exact ⟨by omega, h.present j (reachable_iff_pathTo.2 ⟨p, hp⟩)⟩

/-- 128 symbols leave room for no path of more than 127 bits. -/
theorem WellFormedImage.treeWithin_127 (h : WellFormedImage nodes root) : TreeWithin nodes root 127 := by
  intro p j hp
  obtain ⟨S, hcard, _⟩ := exists_leaves_of_pathTo h.leavesUnique h.treeWithin_255 hp
  have hle := card_sym ▸ S.card_le_univ
  exact ⟨by omega, (h.treeWithin_255 p j hp).2⟩

/-- Settles O40: both sides say that the paths from the root form a tree of at most 127 levels with distinct leaves; the
256 entries bound it first, and then the 128 symbols. -/
theorem generationSucceedsOnWellFormedImages : Obligations.GenerationSucceedsOnWellFormedImages := by
  intro nodes root
  rw [exists_genTable_ok_iff]
  exact ⟨fun ⟨hw, hu⟩ => wellFormedImage_of_tree hw hu, fun h => ⟨h.treeWithin_127, h.leavesUnique⟩⟩

end Sys2Proof.Machine

/-! SUPPORT. The statements about every step: who writes CFG, ROOT, RDATA and the tree image, the error record, and the
FIFOs. The inversion of a step by what it does, and the frame of each body that branches, come first. -/

namespace Sys2Proof.Machine

variable {s t : State}

/-! ### What a step does -/

/-- A step is a reset, runs the body of a command that passes the checks, is a read, raises an error, or is the ENGINE's
turn; but for a reset it is so on the state with the event taken off the agenda. -/
theorem step_inversion (h : step s = .next t) :
    nextIsReset s
      ∨ (∃ i, nextIssues s i ∧ passesChecks s i ∧ t = bodyOf i { s with agenda := s.agenda.tail })
      ∨ (∃ r, s.agenda.head? = some (.host (.read r)) ∧ t = hostRead Config.params r { s with agenda := s.agenda.tail })
      ∨ (∃ e opc d1 d2, t = raise e opc d1 d2 { s with agenda := s.agenda.tail })
      ∨ t = engineTurn { s with agenda := s.agenda.tail } := by
  cases step_cases h with
  | wait ha => exact .inr (.inr (.inr (.inr (by rw [ha, List.tail_nil, ← ha]))))
  | turn rest ha => exact .inr (.inr (.inr (.inr (by rw [ha, List.tail_cons]))))
  | reset rest ha => exact .inl (nextIsReset_iff.2 ⟨rest, ha⟩)
  | read r rest ha => exact .inr (.inr (.inl ⟨r, by rw [ha, List.head?_cons], by rw [ha, List.tail_cons]⟩))
  | badAddr r d rest ha => exact .inr (.inr (.inr (.inl ⟨_, _, _, _, by rw [ha, List.tail_cons]⟩)))
  | badWord w e rest ha => exact .inr (.inr (.inr (.inl ⟨_, _, _, _, by rw [ha, List.tail_cons]⟩)))
  | command w i rest ha hd =>
    rcases issue_cases i (bodyOf i) { s with agenda := rest } with ⟨_, _, hr⟩ | ⟨_, _, hr⟩ | ⟨hp, hb⟩
    · exact .inr (.inr (.inr (.inl ⟨_, _, _, _, by rw [hr, ha, List.tail_cons]⟩)))
    · exact .inr (.inr (.inr (.inl ⟨_, _, _, _, by rw [hr, ha, List.tail_cons]⟩)))
    · refine .inr (.inl ⟨i, (nextIssues_command ha hd i).2 rfl, (passesChecks_agenda s i rest).1 hp, ?_⟩)
      rw [hb, ha, List.tail_cons]

/-! ### The frames of the bodies that branch -/

/-- DEC_CHR writes the error record and the decoder at most. -/
theorem bodyDecChr_frame (P : Params) (ch : Byte) (s : State) : ∃ err info ds cur depth fifo nchr nsym,
    bodyDecChr P ch s = { s with
      err := err, errInfo := info, decState := ds, cur := cur, depth := depth, symFifo := fifo, decNchr := nchr
      decNsym := nsym } := by
  rcases bodyDecChr_cases P ch s with ⟨_, hb⟩ | ⟨_, _, hb⟩ | ⟨_, _, hb⟩ <;> rw [hb]
  · exact ⟨_, _, _, _, _, _, _, _, rfl⟩
  · exact ⟨_, _, _, _, _, _, _, _, rfl⟩
  · cases walk s.nodes s.cfg s.cur s.depth ch <;> exact ⟨_, _, _, _, _, _, _, _, rfl⟩

/-- DEC_END too. -/
theorem bodyDecEnd_frame (s : State) : ∃ err info fifo,
    bodyDecEnd s = { s with
      err := err, errInfo := info, decState := .idle, cur := s.root, depth := 0, symFifo := fifo } := by
  by_cases h : s.decState = .walk ∧ s.depth ≠ 0 ∧ strictEnd s.cfg = true
  · exact ⟨_, _, _, bodyDecEnd_truncated h⟩
  · exact ⟨_, _, _, bodyDecEnd_plain h⟩

/-- ENC_SYM writes the error record and the encoder at most. -/
theorem bodyEncSym_frame (P : Params) (b : Byte) (s : State) : ∃ err info es fifo nsym nbits,
    bodyEncSym P b s = { s with
      err := err, errInfo := info, encState := es, encFifo := fifo, encNsym := nsym, encNbits := nbits } := by
  rcases bodyEncSym_cases P b s with ⟨_, hb⟩ | ⟨_, _, hb⟩ | ⟨_, c, _, ⟨_, hb⟩ | ⟨_, hb⟩⟩ <;> rw [hb] <;>
    exact ⟨_, _, _, _, _, _, rfl⟩

@[simp] theorem bodyOf_agenda (i : Instr) (s : State) : (bodyOf i s).agenda = s.agenda := by
  cases i with
  | decChr ch => obtain ⟨_, _, _, _, _, _, _, _, h⟩ := bodyDecChr_frame Config.params ch s; rw [bodyOf, h]
  | decEnd => obtain ⟨_, _, _, h⟩ := bodyDecEnd_frame s; rw [bodyOf, h]
  | encSym b => obtain ⟨_, _, _, _, _, _, h⟩ := bodyEncSym_frame Config.params b s; rw [bodyOf, h]
  | _ => rfl

/-! ### CFG, ROOT, RDATA and the tree image -/

/-- CFG, the tree image and RDATA stay. -/
structure KeepsImage (s t : State) : Prop where
  cfg : t.cfg = s.cfg
  nodes : t.nodes = s.nodes
  root : t.root = s.root
  rdata : t.rdata = s.rdata

/-- The commands that write CFG, the tree image or RDATA. -/
inductive WritesImage : Instr → Prop where
  | clear : WritesImage .clear
  | setCfg (flags : BitVec 5) : WritesImage (.setCfg flags)
  | nodeWr (idx : NodeIdx) (n : Node) : WritesImage (.nodeWr idx n)
  | setRoot (idx : NodeIdx) : WritesImage (.setRoot idx)
  | nodeRd (idx : NodeIdx) : WritesImage (.nodeRd idx)
  | codeRd (y : Sym) (p : BitVec 3) : WritesImage (.codeRd y p)

theorem bodyOf_image (i : Instr) (s : State) : WritesImage i ∨ KeepsImage s (bodyOf i s) := by
  cases i with
  | clear => exact .inl .clear
  | setCfg flags => exact .inl (.setCfg flags)
  | nodeWr idx n => exact .inl (.nodeWr idx n)
  | setRoot idx => exact .inl (.setRoot idx)
  | nodeRd idx => exact .inl (.nodeRd idx)
  | codeRd y p => exact .inl (.codeRd y p)
  | decChr ch =>
    obtain ⟨_, _, _, _, _, _, _, _, h⟩ := bodyDecChr_frame Config.params ch s
    rw [bodyOf, h]; exact .inr ⟨rfl, rfl, rfl, rfl⟩
  | decEnd =>
    obtain ⟨_, _, _, h⟩ := bodyDecEnd_frame s
    rw [bodyOf, h]; exact .inr ⟨rfl, rfl, rfl, rfl⟩
  | encSym b =>
    obtain ⟨_, _, _, _, _, _, h⟩ := bodyEncSym_frame Config.params b s
    rw [bodyOf, h]; exact .inr ⟨rfl, rfl, rfl, rfl⟩
  | _ => exact .inr ⟨rfl, rfl, rfl, rfl⟩

theorem hostRead_keepsImage (P : Params) (r : Reg) (s : State) : KeepsImage s (hostRead P r s) := by
  cases r <;> exact ⟨rfl, rfl, rfl, rfl⟩

theorem engineTurn_keepsImage (s : State) : KeepsImage s (engineTurn s) := by
  obtain ⟨err, info, code, tv, h⟩ := engineTurn_frame s
  rw [h]; exact ⟨rfl, rfl, rfl, rfl⟩

/-- What is kept from the state without its next event is kept from the state. -/
theorem KeepsImage.of_agenda {agenda : List Event} (h : KeepsImage { s with agenda := agenda } t) : KeepsImage s t :=
  ⟨h.cfg, h.nodes, h.root, h.rdata⟩

/-- A step is a reset, or runs the body of a command that writes CFG, the tree image or RDATA, or keeps them all. -/
theorem step_image (h : step s = .next t) :
    nextIsReset s
      ∨ (∃ i, WritesImage i ∧ nextIssues s i ∧ passesChecks s i ∧ t = bodyOf i { s with agenda := s.agenda.tail })
      ∨ KeepsImage s t := by
  rcases step_inversion h with hr | ⟨i, hi, hp, rfl⟩ | ⟨r, _, rfl⟩ | ⟨e, opc, d1, d2, rfl⟩ | rfl
  · exact .inl hr
  · rcases bodyOf_image i { s with agenda := s.agenda.tail } with hw | hk
    · exact .inr (.inl ⟨i, hw, hi, hp, rfl⟩)
    · exact .inr (.inr hk.of_agenda)
  · exact .inr (.inr (hostRead_keepsImage _ r _).of_agenda)
  · exact .inr (.inr ⟨rfl, rfl, rfl, rfl⟩)
  · exact .inr (.inr (engineTurn_keepsImage _).of_agenda)

/-- Settles O6: command by command, among those that write one of the three. -/
theorem registersWrittenOnlyByTheirCommands : Obligations.RegistersWrittenOnlyByTheirCommands := by
  intro s t h hreset
  rcases step_image h with hr | ⟨i, hw, hi, _, rfl⟩ | hk
  · exact absurd hr hreset
  · cases hw with
    | clear => exact ⟨fun hne => absurd rfl hne, fun hclear => absurd hi hclear⟩
    | setCfg flags =>
      exact ⟨fun _ => ⟨flags, hi, rfl⟩, fun _ => ⟨fun hne => absurd rfl hne, fun hne => absurd rfl hne⟩⟩
    | nodeWr idx n =>
      exact ⟨fun hne => absurd rfl hne, fun _ => ⟨fun hne => absurd rfl hne, fun hne => absurd rfl hne⟩⟩
    | setRoot idx =>
      exact ⟨fun hne => absurd rfl hne, fun _ => ⟨fun _ => ⟨idx, hi, rfl⟩, fun hne => absurd rfl hne⟩⟩
    | nodeRd idx =>
      exact ⟨fun hne => absurd rfl hne, fun _ => ⟨fun hne => absurd rfl hne, fun _ => .inl ⟨idx, hi⟩⟩⟩
    | codeRd y p =>
      exact ⟨fun hne => absurd rfl hne, fun _ => ⟨fun hne => absurd rfl hne, fun _ => .inr ⟨y, p, hi⟩⟩⟩
  · exact ⟨fun hne => absurd hk.cfg hne, fun _ => ⟨fun hne => absurd hk.root hne, fun hne => absurd hk.rdata hne⟩⟩

/-- Settles O26: of the commands that write the tree image, NODE_WR and SET_ROOT pass the checks only between calls. -/
theorem treeImageFixedDuringCalls : Obligations.TreeImageFixedDuringCalls := by
  intro s t h hopen hclear hreset
  have hclosed : ¬ (s.busy = false ∧ s.decState = .idle ∧ s.encState = .idle) := fun ⟨hb, hd, he⟩ => by
    rcases hopen with hd' | he' | hb'
    · exact hd' hd
    · exact he' he
    · rw [hb] at hb'; cases hb'
  rcases step_image h with hr | ⟨i, hw, hi, hp, rfl⟩ | hk
  · exact absurd hr hreset
  · cases hw with
    | clear => exact absurd hi hclear
    | nodeWr idx n => exact absurd (passesChecks_nodeWr.1 hp) hclosed
    | setRoot idx => exact absurd (passesChecks_setRoot.1 hp) hclosed
    | setCfg flags => exact ⟨rfl, rfl⟩
    | nodeRd idx => exact ⟨rfl, rfl⟩
    | codeRd y p => exact ⟨rfl, rfl⟩
  · exact ⟨hk.nodes, hk.root⟩

/-! ### The error record -/

/-- A step but CLR_ERR and a reset keeps the error record or takes one error. -/
theorem step_recordCase (h : step s = .next t) (hclr : ¬ nextIssues s .clrErr) (hreset : ¬ nextIsReset s) :
    ∃ opc, RecordCase opc s t := by
  rcases step_inversion h with hr | ⟨i, hi, hp, rfl⟩ | ⟨r, _, rfl⟩ | ⟨e, opc, d1, d2, rfl⟩ | rfl
  · exact absurd hr hreset
  · cases bodyOf_recordCase (i := i) (fun he => hclr (he ▸ hi)) { s with agenda := s.agenda.tail } with
    | kept herr hinfo => exact ⟨opcode i, .kept herr hinfo⟩
    | raised e d1 d2 herr hinfo => exact ⟨opcode i, .raised e d1 d2 herr hinfo⟩
  · cases r <;> exact ⟨0, .kept rfl rfl⟩
  · exact ⟨opc, .raised e d1 d2 rfl rfl⟩
  · by_cases hb : s.busy = true
    · rw [engineTurn_busy (s := { s with agenda := s.agenda.tail }) hb]
      cases engineStep_recordCase { s with agenda := s.agenda.tail } with
      | kept herr hinfo => exact ⟨engineOpcode, .kept herr hinfo⟩
      | raised e d1 d2 herr hinfo => exact ⟨engineOpcode, .raised e d1 d2 herr hinfo⟩
    · rw [engineTurn_idle (s := { s with agenda := s.agenda.tail }) (Bool.eq_false_iff.2 hb)]
      exact ⟨0, .kept rfl rfl⟩

/-- Settles O5: taking an error adds its flag, and keeps what is latched. -/
theorem errorRecordStaysUntilCleared : Obligations.ErrorRecordStaysUntilCleared := by
  intro s t h hclr hreset
  obtain ⟨opc, hc⟩ := step_recordCase h hclr hreset
  cases hc with
  | kept herr hinfo => exact ⟨fun k hk => herr ▸ hk, fun _ => hinfo⟩
  | raised e d1 d2 herr hinfo =>
    refine ⟨fun k hk => ?_, fun hv => ?_⟩
    · rw [herr, raise_err, BitVec.getLsbD_or, hk, Bool.true_or]
    · rw [hinfo, raise_errInfo, if_pos hv]

/-! ### The FIFOs -/

theorem exists_append_self {α : Type} (l : List α) : ∃ new, l = l ++ new := ⟨[], l.append_nil.symm⟩

/-- What a command's body does to the symbol FIFO: it appends, or empties it for one of R50's events. -/
theorem bodyOf_symFifo {i : Instr} (hi : i ≠ .clear) (s : State) :
    (∃ new, (bodyOf i s).symFifo = s.symFifo ++ new)
      ∨ ((bodyOf i s).symFifo = [] ∧ (i = .decStart
          ∨ (s.decState ≠ .aborted ∧ (bodyOf i s).decState = .aborted ∧ ∃ ch, i = .decChr ch)
          ∨ (i = .decEnd ∧ s.decState = .walk ∧ (bodyOf i s).err.getLsbD 8 = true))) := by
  cases i with
  | clear => exact absurd rfl hi
  | decStart => exact .inr ⟨rfl, .inl rfl⟩
  | decChr ch =>
    rw [bodyOf]
    rcases bodyDecChr_cases Config.params ch s with ⟨_, hb⟩ | ⟨_, _, hb⟩ | ⟨ha, _, hb⟩ <;> rw [hb]
    · exact .inl (exists_append_self _)
    · exact .inl (exists_append_self _)
    · cases walk s.nodes s.cfg s.cur s.depth ch with
      | emitAtRoot y => exact .inl ⟨[y], rfl⟩
      | emitAndRestart y => exact .inl ⟨[y], rfl⟩
      | descend c => exact .inl (exists_append_self _)
      | abort e d1 d2 => exact .inr ⟨rfl, .inr (.inl ⟨ha, rfl, ch, rfl⟩)⟩
  | decEnd =>
    rw [bodyOf]
    by_cases h : s.decState = .walk ∧ s.depth ≠ 0 ∧ strictEnd s.cfg = true
    · rw [bodyDecEnd_truncated h]
      have hflag := raise_err_getLsbD .truncated (opcode .decEnd) s.cur s.depth s (k := 8) (by decide)
      exact .inr ⟨rfl, .inr (.inr ⟨rfl, h.1, hflag.trans (Bool.or_true _)⟩)⟩
    · rw [bodyDecEnd_plain h]; exact .inl (exists_append_self _)
  | encSym b =>
    obtain ⟨_, _, _, _, _, _, h⟩ := bodyEncSym_frame Config.params b s
    rw [bodyOf, h]; exact .inl (exists_append_self _)
  | _ => exact .inl (exists_append_self _)

/-- What a command's body does to the bit FIFO. -/
theorem bodyOf_encFifo {i : Instr} (hi : i ≠ .clear) (s : State) :
    (∃ new, (bodyOf i s).encFifo = s.encFifo ++ new)
      ∨ ((bodyOf i s).encFifo = [] ∧ (i = .encStart
          ∨ (s.encState ≠ .aborted ∧ (bodyOf i s).encState = .aborted ∧ ∃ b, i = .encSym b))) := by
  cases i with
  | clear => exact absurd rfl hi
  | encStart => exact .inr ⟨rfl, .inl rfl⟩
  | encSym b =>
    rw [bodyOf]
    rcases bodyEncSym_cases Config.params b s with ⟨_, hb⟩ | ⟨ha, _, hb⟩ | ⟨_, c, _, ⟨_, hb⟩ | ⟨_, hb⟩⟩ <;> rw [hb]
    · exact .inl (exists_append_self _)
    · exact .inr ⟨rfl, .inr ⟨ha, rfl, b, rfl⟩⟩
    · exact .inl (exists_append_self _)
    · exact .inl ⟨c, rfl⟩
  | decChr ch =>
    obtain ⟨_, _, _, _, _, _, _, _, h⟩ := bodyDecChr_frame Config.params ch s
    rw [bodyOf, h]; exact .inl (exists_append_self _)
  | decEnd =>
    obtain ⟨_, _, _, h⟩ := bodyDecEnd_frame s
    rw [bodyOf, h]; exact .inl (exists_append_self _)
  | _ => exact .inl (exists_append_self _)

/-- What a read does to the two FIFOs: the pop of its own register. -/
theorem hostRead_fifos (P : Params) (r : Reg) (s : State) :
    (hostRead P r s).symFifo = (if r = .symOut then s.symFifo.tail else s.symFifo)
      ∧ (hostRead P r s).encFifo = (if r = .encOut then s.encFifo.tail else s.encFifo) := by
  cases r <;> exact ⟨rfl, rfl⟩

theorem engineTurn_fifos (s : State) :
    (engineTurn s).symFifo = s.symFifo ∧ (engineTurn s).encFifo = s.encFifo := by
  obtain ⟨err, info, code, tv, h⟩ := engineTurn_frame s
  rw [h]; exact ⟨rfl, rfl⟩

/-- Settles O7: a command's body by its cases, a read by its pop; the checks leave WALK and ACTIVE as the state before
an abort. -/
theorem fifosLoseNothing : Obligations.FifosLoseNothing := by
  intro s t h hreset hclear
  rcases step_inversion h with hr | ⟨i, hi, hp, rfl⟩ | ⟨r, hr, rfl⟩ | ⟨e, opc, d1, d2, rfl⟩ | rfl
  · exact absurd hr hreset
  · have hne : i ≠ .clear := fun he => hclear (he ▸ hi)
    constructor
    · rcases bodyOf_symFifo hne { s with agenda := s.agenda.tail } with hnew | ⟨hnil, hcause⟩
      · exact .inl hnew
      · refine .inr (.inr ⟨hnil, ?_⟩)
        rcases hcause with rfl | ⟨ha, hab, ch, rfl⟩ | ⟨rfl, hw, herr⟩
        · exact .inl hi
        · obtain ⟨_, hs⟩ := passesChecks_decChr.1 hp
          exact .inr (.inl ⟨hs.resolve_right ha, hab⟩)
        · exact .inr (.inr ⟨hi, hw, herr⟩)
    · rcases bodyOf_encFifo hne { s with agenda := s.agenda.tail } with hnew | ⟨hnil, hcause⟩
      · exact .inl hnew
      · refine .inr (.inr ⟨hnil, ?_⟩)
        rcases hcause with rfl | ⟨ha, hab, b, rfl⟩
        · exact .inl hi
        · obtain ⟨_, hs⟩ := passesChecks_encSym.1 hp
          exact .inr ⟨hs.resolve_right ha, hab⟩
  · obtain ⟨hsym, henc⟩ := hostRead_fifos Config.params r { s with agenda := s.agenda.tail }
    rw [hsym, henc]
    constructor
    · split
      case isTrue hpop => exact .inr (.inl ⟨hpop ▸ hr, rfl⟩)
      case isFalse => exact .inl (exists_append_self _)
    · split
      case isTrue hpop => exact .inr (.inl ⟨hpop ▸ hr, rfl⟩)
      case isFalse => exact .inl (exists_append_self _)
  · exact ⟨.inl (exists_append_self _), .inl (exists_append_self _)⟩
  · obtain ⟨hsym, henc⟩ := engineTurn_fifos { s with agenda := s.agenda.tail }
    rw [hsym, henc]
    exact ⟨.inl (exists_append_self _), .inl (exists_append_self _)⟩

end Sys2Proof.Machine

/-! SUPPORT. The reset, CLEAR beside it, void calls, and the end of a run (70_reset_and_hazards.md, 60_exceptions.md
section 3). -/

namespace Sys2Proof.Machine

variable {s t : State}

/-! ### Reset -/

theorem step_reset {rest : List Event} (h : s.agenda = .reset :: rest) :
    step s = .next { State.reset with agenda := rest, reads := s.reads } := step_of_case (.reset rest h)

/-- STATUS after a reset: DEC_IN_RDY and AT_ROOT alone, since a FIFO's depth is one more than some number. -/
theorem status_reset : status Config.params State.reset = 0x00000140#32 := rfl

/-- Settles O1: the step is `resetDevice`, and each register reads its value from the literal state. -/
theorem resetRestoresEveryComponent : Obligations.ResetRestoresEveryComponent := by
  intro s rest ha
  have hread : ∀ r, readValue Config.params r { State.reset with agenda := rest, reads := s.reads }
      = readValue Config.params r State.reset := fun r => by cases r <;> rfl
  refine ⟨_, step_reset ha, rfl, fun i => rfl, fun y => rfl, ?_⟩
  rw [hread, hread, hread]
  exact ⟨status_reset, by decide, by decide, by simp [irq, State.reset], rfl⟩

/-- A run whose next event writes the word of a command that passes the checks: the body runs first. -/
theorem run_command {i : Instr} {rest : List Event} (ha : s.agenda = .host (.write .cmd (encode i)) :: rest)
    (hwf : i.wellFormed = true) (hp : passesChecks s i) (n : Nat) :
    Host.Core.run core (n + 1) s = Host.Core.run core n (bodyOf i { s with agenda := rest }) := by
  refine run_succ n ((step_of_case (.command _ i rest ha (decodeOfEncodeIsTheCommand i hwf))).trans ?_)
  rw [issue_passes ((passesChecks_agenda s i rest).2 hp)]

/-- Settles O22: CLEAR's body and the reset are updates of the same literal, and CLEAR leaves no GEN_TABLE pending that
could reject SET_CFG. -/
theorem clearThenStrictThenClrErrIsReset : Obligations.ClearThenStrictThenClrErrIsReset := by
  intro s rest
  refine ⟨⟨bodyClear s, _, exec_clear s, step_reset rfl, rfl⟩, _, step_reset rfl, ?_⟩
  rw [run_command rfl rfl (passesChecks_clear _), run_command rfl rfl ⟨.inl rfl, rfl⟩,
    run_command rfl rfl (passesChecks_clrErr _)]
  rfl

/-! ### Void calls -/

/-- After a reset or a CLEAR both FIFOs are empty. -/
theorem step_reset_or_clear_fifos (h : step s = .next t) (hc : nextIssues s .clear ∨ nextIsReset s) :
    t.symFifo = [] ∧ t.encFifo = [] := by
  rcases hc with hi | hr
  · rw [step_of_passesChecks h hi (passesChecks_clear s)]; exact ⟨rfl, rfl⟩
  · rw [step_of_nextIsReset h hr]; exact ⟨rfl, rfl⟩

/-- A step that aborts the decode call is a DEC_CHR whose walk aborts, which flushes the FIFO. -/
theorem step_abortDec_flushes (h : step s = .next t) (hs : s.decState = .walk) (ht : t.decState = .aborted) :
    t.symFifo = [] := by
  rcases step_decState_ne h (by rw [hs, ht]; decide) with hr | hi | ⟨_, _, hs'⟩ | ⟨ch, hi, hb, _, hf, e, d1, d2, hw, _⟩
    | ⟨hi, hb, hs'⟩
  · exact (step_reset_or_clear_fifos h (.inr hr)).1
  · exact (step_reset_or_clear_fifos h (.inl hi)).1
  · rw [hs] at hs'; exact absurd hs' (by decide)
  · rw [step_of_passesChecks h hi (passesChecks_decChr.2 ⟨hb, .inl hs⟩), bodyOf,
      bodyDecChr_abort (s := { s with agenda := s.agenda.tail }) hs hf hw]
    rfl
  · rw [step_of_passesChecks h hi (passesChecks_decEnd.2 ⟨hb, hs'⟩), bodyOf, bodyDecEnd_decState] at ht
    cases ht

/-- A step that aborts the encode call is an ENC_SYM of an unmapped byte, which flushes the FIFO. -/
theorem step_abortEnc_flushes (h : step s = .next t) (hs : s.encState = .active) (ht : t.encState = .aborted) :
    t.encFifo = [] := by
  rcases step_encState_ne h (by rw [hs, ht]; decide) with hr | hi | ⟨_, _, hs'⟩ | ⟨b, hi, hb, _, hc⟩ | ⟨hi, hb, hs'⟩
  · exact (step_reset_or_clear_fifos h (.inr hr)).2
  · exact (step_reset_or_clear_fifos h (.inl hi)).2
  · rw [hs] at hs'; exact absurd hs' (by decide)
  · rw [step_of_passesChecks h hi (passesChecks_encSym.2 ⟨hb, .inl hs⟩), bodyOf,
      bodyEncSym_unmapped (s := { s with agenda := s.agenda.tail }) hs hc]
    rfl
  · rw [step_of_passesChecks h hi (passesChecks_encEnd.2 ⟨hb, hs'⟩)] at ht
    cases ht

/-- Settles O59: whatever makes the call void empties its FIFO. -/
theorem voidCallsKeepNoOutput : Obligations.VoidCallsKeepNoOutput := by
  intro s t h
  refine ⟨fun ⟨_, hvoid⟩ => ?dec, fun ⟨_, hvoid⟩ => ?enc⟩
  case dec =>
    rcases hvoid with ⟨hs, ht⟩ | ⟨hi, hp, hcut⟩ | hc
    · exact step_abortDec_flushes h hs ht
    · rw [step_of_passesChecks h hi hp, bodyOf, bodyDecEnd_truncated (s := { s with agenda := s.agenda.tail }) hcut]
    · exact (step_reset_or_clear_fifos h hc).1
  case enc =>
    rcases hvoid with ⟨hs, ht⟩ | hc
    · exact step_abortEnc_flushes h hs ht
    · exact (step_reset_or_clear_fifos h hc).2

/-! ### The end of a run -/

/-- A step takes the next event off the agenda. -/
theorem step_agenda (h : step s = .next t) : t.agenda = s.agenda.tail := by
  rcases step_inversion h with hr | ⟨i, _, _, rfl⟩ | ⟨r, _, rfl⟩ | ⟨e, opc, d1, d2, rfl⟩ | rfl
  · rw [step_of_nextIsReset h hr]; rfl
  · exact bodyOf_agenda i _
  · cases r <;> rfl
  · rfl
  · obtain ⟨err, info, code, tv, hf⟩ := engineTurn_frame { s with agenda := s.agenda.tail }
    rw [hf]

/-- Settles O60: each step takes an event off the agenda, and the one after the last is the ENGINE's turn. -/
theorem everyRunEnds : Obligations.EveryRunEnds := by
  intro s
  generalize hn : s.agenda.length = n
  induction n generalizing s with
  | zero =>
    have ha := List.length_eq_zero_iff.1 hn
    refine ⟨engineTurn s, run_succ 0 (step_nil ha), ?_, engineTurn_busy_false s⟩
    rw [step_agenda (step_nil ha), ha, List.tail_nil]
  | succ n ih =>
    obtain ⟨t, h⟩ := step_next s
    obtain ⟨u, hrun, hend⟩ := ih t (by rw [step_agenda h, List.length_tail, hn, Nat.add_sub_cancel])
    exact ⟨u, (run_succ (n + 1) h).trans hrun, hend⟩

end Sys2Proof.Machine

/-! SUPPORT. The invariant: the reset state meets it, and every step keeps each of its five parts. -/

namespace Sys2Proof.Machine

variable {s t : State}

/-! ### The memories -/

theorem genTable_ok_wf {nodes : Mem Node} {root : NodeIdx} {tbl : Mem Code} (h : genTable nodes root = .ok tbl) :
    tbl.wf Config.numSyms = true := (visited_of_visit_ok State.reset_code_wf h).canonical

theorem bodyOf_memories (i : Instr) (h : MemoriesCanonical s) : MemoriesCanonical (bodyOf i s) := by
  cases i with
  | clear => exact ⟨rfl, rfl⟩
  | nodeWr idx n => exact ⟨wf_writeNode h.nodes idx _, rfl⟩
  | setRoot idx => exact ⟨h.nodes, rfl⟩
  | genTable => exact ⟨h.nodes, rfl⟩
  | decChr ch =>
    obtain ⟨_, _, _, _, _, _, _, _, hb⟩ := bodyDecChr_frame Config.params ch s
    rw [bodyOf, hb]; exact ⟨h.nodes, h.code⟩
  | decEnd =>
    obtain ⟨_, _, _, hb⟩ := bodyDecEnd_frame s
    rw [bodyOf, hb]; exact ⟨h.nodes, h.code⟩
  | encSym b =>
    obtain ⟨_, _, _, _, _, _, hb⟩ := bodyEncSym_frame Config.params b s
    rw [bodyOf, hb]; exact ⟨h.nodes, h.code⟩
  | _ => exact ⟨h.nodes, h.code⟩

theorem engineStep_memories (h : MemoriesCanonical s) : MemoriesCanonical (engineStep s) := by
  rcases engineStep_cases s with ⟨tbl, hg, he⟩ | ⟨i, sub, _, he⟩ <;> rw [he]
  · exact ⟨h.nodes, genTable_ok_wf hg⟩
  · exact ⟨h.nodes, h.code⟩

/-! ### The code table -/

/-- A cleared table is current whatever the tree image, while the encode call is as `busy` needs it. -/
theorem tableCurrent_of_cleared (hcode : s.code = []) (hvalid : s.tableValid = false)
    (hbusy : s.busy = true → s.encState = .idle) : TableCurrent s :=
  ⟨fun _ => hcode, fun h => absurd (hvalid.symm.trans h) nofun, fun _ => hvalid, hbusy⟩

/-- The table stays current when the tree image, the table and `busy` stay, and no encode call opens while `busy`. -/
theorem TableCurrent.of_same (h : TableCurrent s) (hnodes : t.nodes = s.nodes) (hroot : t.root = s.root)
    (hcode : t.code = s.code) (hvalid : t.tableValid = s.tableValid) (hbusy : t.busy = s.busy)
    (henc : s.busy = true → t.encState = s.encState) : TableCurrent t where
  invalidEmpty := by rw [hvalid, hcode]; exact h.invalidEmpty
  validCurrent := by rw [hvalid, hnodes, hroot, hcode]; exact h.validCurrent
  busyInvalid := by rw [hbusy, hvalid]; exact h.busyInvalid
  busyEncIdle hb := by rw [hbusy] at hb; exact (henc hb).trans (h.busyEncIdle hb)

theorem bodyOf_table {i : Instr} (hp : passesChecks s i) (h : TableCurrent s) : TableCurrent (bodyOf i s) := by
  cases i with
  | clear => exact tableCurrent_of_cleared rfl rfl nofun
  | nodeWr idx n => exact tableCurrent_of_cleared rfl rfl h.busyEncIdle
  | setRoot idx => exact tableCurrent_of_cleared rfl rfl h.busyEncIdle
  | genTable => exact tableCurrent_of_cleared rfl rfl fun _ => (passesChecks_genTable.1 hp).2
  | decChr ch =>
    obtain ⟨_, _, _, _, _, _, _, _, hb⟩ := bodyDecChr_frame Config.params ch s
    rw [bodyOf, hb]; exact h.of_same rfl rfl rfl rfl rfl fun _ => rfl
  | decEnd =>
    obtain ⟨_, _, _, hb⟩ := bodyDecEnd_frame s
    rw [bodyOf, hb]; exact h.of_same rfl rfl rfl rfl rfl fun _ => rfl
  | encSym b =>
    obtain ⟨_, _, _, _, _, _, hb⟩ := bodyEncSym_frame Config.params b s
    rw [bodyOf, hb]
    refine h.of_same rfl rfl rfl rfl rfl fun hbusy => ?_
    rw [(passesChecks_encSym.1 hp).1] at hbusy; cases hbusy
  | encStart =>
    refine h.of_same rfl rfl rfl rfl rfl fun hbusy => ?_
    rw [(passesChecks_encStart.1 hp).1] at hbusy; cases hbusy
  | encEnd => exact h.of_same rfl rfl rfl rfl rfl fun hbusy => (h.busyEncIdle hbusy).symm
  | _ => exact h.of_same rfl rfl rfl rfl rfl fun _ => rfl

theorem engineStep_table (hb : s.busy = true) (h : TableCurrent s) : TableCurrent (engineStep s) := by
  rcases engineStep_cases s with ⟨tbl, hg, he⟩ | ⟨i, sub, _, he⟩ <;> rw [he]
  · exact ⟨nofun, fun _ => hg, nofun, nofun⟩
  · exact tableCurrent_of_cleared (h.invalidEmpty (h.busyInvalid hb)) (h.busyInvalid hb) nofun

/-! ### The walker -/

/-- The walker with no decode call consuming characters, not below the depth limit. -/
theorem walkerInRange_of_not_walk (hs : s.decState ≠ .walk) (hdepth : s.depth.toNat ≤ 126)
    (hidle : s.decState = .idle → s.depth = 0) : WalkerInRange s :=
  ⟨hdepth, hidle, fun h => absurd h hs, fun h => absurd h hs⟩

/-- The walker at the root. -/
theorem walkerInRange_at_root (hcur : s.cur = s.root) (hdepth : s.depth = 0) : WalkerInRange s :=
  ⟨by rw [hdepth]; decide, fun _ => hdepth, fun _ _ => hcur, fun _ h => absurd hdepth h⟩

theorem WalkerInRange.of_same (h : WalkerInRange s) (hstate : t.decState = s.decState) (hcur : t.cur = s.cur)
    (hdepth : t.depth = s.depth) (hroot : t.root = s.root) (hnodes : t.nodes = s.nodes) : WalkerInRange t where
  depthBound := hdepth ▸ h.depthBound
  idleAtTop := by rw [hstate, hdepth]; exact h.idleAtTop
  topIsRoot := by rw [hstate, hdepth, hcur, hroot]; exact h.topIsRoot
  belowIsInternal := by rw [hstate, hdepth, hcur, hnodes]; exact h.belowIsInternal

theorem walkChild_descend {nodes : Mem Node} {c c' : NodeIdx} {depth : BitVec 8}
    (h : walkChild nodes depth c' = .descend c) :
    (∃ l r, readNode nodes c = some (.internal l r)) ∧ depth.toNat + 1 ≤ 126 := by
  match hn : readNode nodes c' with
  | none => rw [walkChild_none hn] at h; cases h
  | some (.leaf y) => rw [walkChild_leaf hn] at h; cases h
  | some (.internal l r) =>
    rw [walkChild_internal hn] at h
    split at h
    case isTrue => cases h
    case isFalse hdepth => cases h; exact ⟨⟨l, r, hn⟩, by omega⟩

/-- The walker descends to an internal node only, and within the depth limit. -/
theorem walk_descend {nodes : Mem Node} {cfg : BitVec 5} {cur c : NodeIdx} {depth : BitVec 8} {ch : Byte}
    (h : walk nodes cfg cur depth ch = .descend c) :
    (∃ l r, readNode nodes c = some (.internal l r)) ∧ depth.toNat + 1 ≤ 126 := by
  simp only [walk] at h
  split at h
  · cases h
  · split at h
    · cases h
    · split at h <;> cases h
    · exact walkChild_descend h

/-- One level deeper, while the depth fits its 8 bits. -/
theorem depth_succ_toNat {depth : BitVec 8} (h : depth.toNat < 255) : (depth + 1).toNat = depth.toNat + 1 :=
  BitVec.toNat_add_of_lt (y := 1#8) (Nat.add_lt_add_right h 1)

theorem bodyDecChr_walker {P : Params} {ch : Byte} (hs : s.decState = .walk ∨ s.decState = .aborted)
    (h : WalkerInRange s) : WalkerInRange (bodyDecChr P ch s) := by
  rcases bodyDecChr_cases P ch s with ⟨_, hb⟩ | ⟨_, _, hb⟩ | ⟨ha, _, hb⟩ <;> rw [hb]
  · exact h
  · exact h.of_same rfl rfl rfl rfl rfl
  · have hwalk : s.decState = .walk := hs.resolve_right ha
    cases hw : walk s.nodes s.cfg s.cur s.depth ch with
    | emitAtRoot y => exact h.of_same rfl rfl rfl rfl rfl
    | emitAndRestart y => exact walkerInRange_at_root rfl rfl
    | descend c =>
      obtain ⟨hinternal, hdepth⟩ := walk_descend hw
      have hnat := depth_succ_toNat (depth := s.depth) (by omega)
      have hne : s.depth + 1 ≠ 0 := fun h0 => by rw [h0] at hnat; cases hnat
      refine ⟨?_, fun hidle => ?_, fun _ h0 => absurd h0 hne, fun _ _ => hinternal⟩
      · exact hnat ▸ hdepth
      · rw [show s.decState = .idle from hidle] at hwalk; cases hwalk
    | abort e d1 d2 => exact walkerInRange_of_not_walk nofun h.depthBound nofun

theorem bodyOf_walker {i : Instr} (hp : passesChecks s i) (h : WalkerInRange s) : WalkerInRange (bodyOf i s) := by
  cases i with
  | clear => exact walkerInRange_at_root rfl rfl
  | nodeWr idx n =>
    obtain ⟨_, hd, _⟩ := passesChecks_nodeWr.1 hp
    exact walkerInRange_of_not_walk (fun hw => by cases hd.symm.trans hw) h.depthBound h.idleAtTop
  | setRoot idx =>
    obtain ⟨_, hd, _⟩ := passesChecks_setRoot.1 hp
    exact walkerInRange_of_not_walk (fun hw => by cases hd.symm.trans hw) h.depthBound h.idleAtTop
  | decStart => exact walkerInRange_at_root rfl rfl
  | decChr ch => exact bodyDecChr_walker (passesChecks_decChr.1 hp).2 h
  | decEnd =>
    obtain ⟨_, _, _, hb⟩ := bodyDecEnd_frame s
    rw [bodyOf, hb]; exact walkerInRange_at_root rfl rfl
  | encSym b =>
    obtain ⟨_, _, _, _, _, _, hb⟩ := bodyEncSym_frame Config.params b s
    rw [bodyOf, hb]; exact h.of_same rfl rfl rfl rfl rfl
  | _ => exact h.of_same rfl rfl rfl rfl rfl

theorem engineTurn_walker (h : WalkerInRange s) : WalkerInRange (engineTurn s) := by
  obtain ⟨err, info, code, tv, he⟩ := engineTurn_frame s
  rw [he]; exact h.of_same rfl rfl rfl rfl rfl

/-! ### The FIFOs -/

theorem bodyDecChr_symFifo_le {ch : Byte} (h : s.symFifo.length ≤ Config.params.symFifoDepth) :
    (bodyDecChr Config.params ch s).symFifo.length ≤ Config.params.symFifoDepth := by
  rcases bodyDecChr_cases Config.params ch s with ⟨_, hb⟩ | ⟨_, _, hb⟩ | ⟨_, hf, hb⟩ <;> rw [hb]
  · exact h
  · exact h
  · cases walk s.nodes s.cfg s.cur s.depth ch with
    | emitAtRoot y | emitAndRestart y =>
      simp only [applyWalk, List.length_append, List.length_singleton]; omega
    | descend c => exact h
    | abort e d1 d2 => exact Nat.zero_le _

theorem bodyEncSym_encFifo_le {b : Byte} (h : s.encFifo.length ≤ Config.params.encFifoDepth) :
    (bodyEncSym Config.params b s).encFifo.length ≤ Config.params.encFifoDepth := by
  rcases bodyEncSym_cases Config.params b s with ⟨_, hb⟩ | ⟨_, _, hb⟩ | ⟨_, c, _, ⟨_, hb⟩ | ⟨hfit, hb⟩⟩ <;> rw [hb]
  · exact h
  · exact Nat.zero_le _
  · exact h
  · rw [pushCode_encFifo, List.length_append]; exact hfit

theorem bodyOf_fifos (i : Instr) (h : FifosFit s) : FifosFit (bodyOf i s) := by
  cases i with
  | clear => exact ⟨Nat.zero_le _, Nat.zero_le _⟩
  | decStart => exact ⟨Nat.zero_le _, h.enc⟩
  | encStart => exact ⟨h.sym, Nat.zero_le _⟩
  | decChr ch => 
    refine ⟨bodyDecChr_symFifo_le h.sym, ?_⟩
    obtain ⟨_, _, _, _, _, _, _, _, hb⟩ := bodyDecChr_frame Config.params ch s
    rw [bodyOf, hb]; exact h.enc
  | decEnd =>
    rw [bodyOf]
    by_cases hcut : s.decState = .walk ∧ s.depth ≠ 0 ∧ strictEnd s.cfg = true
    · rw [bodyDecEnd_truncated hcut]; exact ⟨Nat.zero_le _, h.enc⟩
    · rw [bodyDecEnd_plain hcut]; exact ⟨h.sym, h.enc⟩
  | encSym b =>
    refine ⟨?_, bodyEncSym_encFifo_le h.enc⟩
    obtain ⟨_, _, _, _, _, _, hb⟩ := bodyEncSym_frame Config.params b s
    rw [bodyOf, hb]; exact h.sym
  | _ => exact ⟨h.sym, h.enc⟩

theorem hostRead_fifosFit (P : Params) (r : Reg) (h : FifosFit s) : FifosFit (hostRead P r s) := by
  obtain ⟨hsym, henc⟩ := hostRead_fifos P r s
  constructor
  · rw [hsym]; split
    · exact (List.tail_sublist _).length_le.trans h.sym
    · exact h.sym
  · rw [henc]; split
    · exact (List.tail_sublist _).length_le.trans h.enc
    · exact h.enc

/-! ### The error record -/

theorem errFlag_ne_zero (e : Err) : errFlag e ≠ 0 := by cases e <;> decide

theorem raise_errInfo_v (e : Err) (opc : BitVec 4) (d1 d2 : Byte) (s : State) :
    (raise e opc d1 d2 s).errInfo.v = true := by
  rw [raise_errInfo]; split
  case isTrue h => exact h
  case isFalse => rfl

theorem raise_err_and_ne_zero {f : BitVec 11} (e : Err) (opc : BitVec 4) (d1 d2 : Byte)
    (h : s.err &&& f ≠ 0 ∨ errFlag e &&& f ≠ 0) : (raise e opc d1 d2 s).err &&& f ≠ 0 := by
  rw [raise_err, BitVec.and_or_distrib_right]
  intro h0
  obtain ⟨hs, he⟩ := BitVec.or_eq_zero_iff.1 h0
  exact h.elim (absurd hs) (absurd he)

theorem raise_errorRecordSound (e : Err) (opc : BitVec 4) (d1 d2 : Byte) (h : ErrorRecordSound s) :
    ErrorRecordSound (raise e opc d1 d2 s) where
  latchedIff := by
    refine iff_of_true (raise_errInfo_v e opc d1 d2 s) fun h0 => ?_
    exact errFlag_ne_zero e (BitVec.or_eq_zero_iff.1 h0).2
  empty hv := by rw [raise_errInfo_v] at hv; cases hv
  codeFlagged _ := by
    by_cases hv : s.errInfo.v = true
    · obtain ⟨e', hcode, hflag⟩ := h.codeFlagged hv
      exact ⟨e', by rw [raise_errInfo, if_pos hv, hcode], raise_err_and_ne_zero e opc d1 d2 (.inl hflag)⟩
    · refine ⟨e, by rw [raise_errInfo, if_neg hv], raise_err_and_ne_zero e opc d1 d2 (.inr ?_)⟩
      rw [BitVec.and_self]
      exact errFlag_ne_zero e

/-- Soundness is about the two components of the record alone. -/
theorem ErrorRecordSound.of_same (h : ErrorRecordSound s) (herr : t.err = s.err) (hinfo : t.errInfo = s.errInfo) :
    ErrorRecordSound t where
  latchedIff := by rw [hinfo, herr]; exact h.latchedIff
  empty := by rw [hinfo]; exact h.empty
  codeFlagged := by rw [hinfo, herr]; exact h.codeFlagged

theorem errorRecordSound_reset : ErrorRecordSound State.reset :=
  ⟨iff_of_false nofun fun h => h rfl, fun _ => rfl, nofun⟩

theorem RecordCase.errorRecordSound {opc : BitVec 4} (hc : RecordCase opc s t) (h : ErrorRecordSound s) :
    ErrorRecordSound t := by
  cases hc with
  | kept herr hinfo => exact h.of_same herr hinfo
  | raised e d1 d2 herr hinfo => exact (raise_errorRecordSound e opc d1 d2 h).of_same herr hinfo

theorem bodyOf_errors (i : Instr) (h : ErrorRecordSound s) : ErrorRecordSound (bodyOf i s) := by
  by_cases hi : i = .clrErr
  · subst hi; exact errorRecordSound_reset.of_same rfl rfl
  · exact (bodyOf_recordCase hi s).errorRecordSound h

/-! ### The invariant -/

/-- Settles O57: part by part, on the literal. -/
theorem resetMeetsTheInvariant : Obligations.ResetMeetsTheInvariant where
  memories := ⟨State.reset_nodes_wf, State.reset_code_wf⟩
  table := tableCurrent_of_cleared rfl rfl nofun
  walker := walkerInRange_at_root rfl rfl
  fifos := ⟨Nat.zero_le _, Nat.zero_le _⟩
  errors := errorRecordSound_reset

/-- The invariant does not look at the schedule or at what was read. -/
theorem Inv.of_schedule (h : Inv s) (agenda : List Event) (reads : List Word) :
    Inv { s with agenda := agenda, reads := reads } where
  memories := ⟨h.memories.nodes, h.memories.code⟩
  table := h.table.of_same rfl rfl rfl rfl rfl fun _ => rfl
  walker := h.walker.of_same rfl rfl rfl rfl rfl
  fifos := ⟨h.fifos.sym, h.fifos.enc⟩
  errors := h.errors.of_same rfl rfl

theorem bodyOf_inv {i : Instr} (hp : passesChecks s i) (h : Inv s) : Inv (bodyOf i s) where
  memories := bodyOf_memories i h.memories
  table := bodyOf_table hp h.table
  walker := bodyOf_walker hp h.walker
  fifos := bodyOf_fifos i h.fifos
  errors := bodyOf_errors i h.errors

theorem raise_inv (e : Err) (opc : BitVec 4) (d1 d2 : Byte) (h : Inv s) : Inv (raise e opc d1 d2 s) where
  memories := ⟨h.memories.nodes, h.memories.code⟩
  table := h.table.of_same rfl rfl rfl rfl rfl fun _ => rfl
  walker := h.walker.of_same rfl rfl rfl rfl rfl
  fifos := ⟨h.fifos.sym, h.fifos.enc⟩
  errors := raise_errorRecordSound e opc d1 d2 h.errors

/-- A read writes the FIFOs and the observation at most. -/
theorem hostRead_frame (P : Params) (r : Reg) (s : State) : ∃ sym enc reads,
    hostRead P r s = { s with symFifo := sym, encFifo := enc, reads := reads } := by
  cases r <;> exact ⟨_, _, _, rfl⟩

theorem hostRead_inv (P : Params) (r : Reg) (h : Inv s) : Inv (hostRead P r s) := by
  have hfifos := hostRead_fifosFit P r h.fifos
  obtain ⟨sym, enc, reads, hr⟩ := hostRead_frame P r s
  rw [hr] at hfifos ⊢
  exact ⟨⟨h.memories.nodes, h.memories.code⟩, h.table.of_same rfl rfl rfl rfl rfl fun _ => rfl,
    h.walker.of_same rfl rfl rfl rfl rfl, hfifos, h.errors.of_same rfl rfl⟩

theorem engineTurn_inv (h : Inv s) : Inv (engineTurn s) := by
  by_cases hb : s.busy = true
  · have hwalker := engineTurn_walker h.walker
    obtain ⟨hsym, henc⟩ := engineTurn_fifos s
    rw [engineTurn_busy hb] at hwalker hsym henc ⊢
    exact ⟨engineStep_memories h.memories, engineStep_table hb h.table, hwalker,
      ⟨hsym ▸ h.fifos.sym, henc ▸ h.fifos.enc⟩, (engineStep_recordCase s).errorRecordSound h.errors⟩
  · rw [engineTurn_idle (Bool.eq_false_iff.2 hb)]; exact h

/-- Settles O58: what a step does, on the state with its event taken off the agenda. -/
theorem everyStepKeepsTheInvariant : Obligations.EveryStepKeepsTheInvariant := by
  intro s t hinv h
  have hinv' : Inv { s with agenda := s.agenda.tail } := hinv.of_schedule s.agenda.tail s.reads
  rcases step_inversion h with hr | ⟨i, _, hp, rfl⟩ | ⟨r, _, rfl⟩ | ⟨e, opc, d1, d2, rfl⟩ | rfl
  · rw [step_of_nextIsReset h hr]; exact Inv.of_schedule resetMeetsTheInvariant s.agenda.tail s.reads
  · exact bodyOf_inv ((passesChecks_agenda s i _).2 hp) hinv'
  · exact hostRead_inv _ r hinv'
  · exact raise_inv e opc d1 d2 hinv'
  · exact engineTurn_inv hinv'

end Sys2Proof.Machine

/-! SUPPORT. Whole calls (42_decode.md R98, 43_codegen_encode.md R108): the commands of a call do what the function of
its input says, and decoding undoes encoding. -/

namespace Sys2Proof.Machine

variable {s t : State}

/-! ### The functions of a call -/

section decodeFrom

variable {nodes : Mem Node} {root cur : NodeIdx} {cfg : BitVec 5} {depth : BitVec 8} {out res : List Sym} {k : Nat}
  {ch : Byte} {x : List Byte}

theorem decodeFrom_nil : decodeFrom nodes root cfg cur depth out k [] =
    if depth ≠ 0 ∧ strictEnd cfg = true then .err .truncated cur depth k else .ok out := rfl

theorem decodeFrom_emitAtRoot {y : Sym} (h : walk nodes cfg cur depth ch = .emitAtRoot y) :
    decodeFrom nodes root cfg cur depth out k (ch :: x)
      = decodeFrom nodes root cfg cur depth (out ++ [y]) (k + 1) x := by
  simp only [decodeFrom, h]

theorem decodeFrom_emitAndRestart {y : Sym} (h : walk nodes cfg cur depth ch = .emitAndRestart y) :
    decodeFrom nodes root cfg cur depth out k (ch :: x) = decodeFrom nodes root cfg root 0 (out ++ [y]) (k + 1) x := by
  simp only [decodeFrom, h]

theorem decodeFrom_descend {c : NodeIdx} (h : walk nodes cfg cur depth ch = .descend c) :
    decodeFrom nodes root cfg cur depth out k (ch :: x) = decodeFrom nodes root cfg c (depth + 1) out (k + 1) x := by
  simp only [decodeFrom, h]

theorem decodeFrom_abort {e : Err} {d1 d2 : Byte} (h : walk nodes cfg cur depth ch = .abort e d1 d2) :
    decodeFrom nodes root cfg cur depth out k (ch :: x) = .err e d1 d2 k := by
  simp only [decodeFrom, h]

/-- The output only grows. -/
theorem length_le_of_decodeFrom_ok (h : decodeFrom nodes root cfg cur depth out k x = .ok res) :
    out.length ≤ res.length := by
  induction x generalizing cur depth out k with
  | nil =>
    rw [decodeFrom_nil] at h
    split at h <;> cases h
    exact le_rfl
  | cons ch x ih =>
    cases hw : walk nodes cfg cur depth ch with
    | emitAtRoot y =>
      rw [decodeFrom_emitAtRoot hw] at h
      have hle := ih h
      rw [List.length_append] at hle; omega
    | emitAndRestart y =>
      rw [decodeFrom_emitAndRestart hw] at h
      have hle := ih h
      rw [List.length_append] at hle; omega
    | descend c => rw [decodeFrom_descend hw] at h; exact ih h
    | abort e d1 d2 => rw [decodeFrom_abort hw] at h; cases h

end decodeFrom

/-! ### A decode call, command by command -/

/-- `s` with a decode call open: the walker's position, the output so far, the number of characters consumed, and the
characters and the DEC_END still to come. -/
def inDecodeCall (s : State) (cur : NodeIdx) (depth : BitVec 8) (out : List Sym) (k : Nat) (x : List Byte) : State :=
  { s with
    agenda := commandEvents (decStr x ++ [.decEnd]), decState := .walk, cur := cur, depth := depth, symFifo := out
    decNchr := BitVec.ofNat 32 k, decNsym := BitVec.ofNat 32 out.length }

section decodeCall

variable {cur : NodeIdx} {depth : BitVec 8} {out : List Sym} {k n : Nat} {ch : Byte} {x : List Byte}

theorem run_decStart (hb : s.busy = false) (hs : s.decState ≠ .walk)
    (ha : s.agenda = commandEvents (decodeCommands x)) :
    Host.Core.run core (n + 1) s = Host.Core.run core n (inDecodeCall s s.root 0 [] 0 x) :=
  run_command ha rfl (passesChecks_decStart.2 ⟨hb, DecState.ne_walk_iff.1 hs⟩) n

theorem run_decChr (hb : s.busy = false) (hroom : out.length ≠ Config.params.symFifoDepth) :
    Host.Core.run core (n + 1) (inDecodeCall s cur depth out k (ch :: x))
      = Host.Core.run core n
          (applyWalk 0xA#4 (walk s.nodes s.cfg cur depth ch) (inDecodeCall s cur depth out k x)) := by
  rw [run_command (s := inDecodeCall s cur depth out k (ch :: x)) rfl rfl (passesChecks_decChr.2 ⟨hb, .inl rfl⟩)]
  exact congrArg _ (bodyDecChr_walk (s := inDecodeCall s cur depth out k x) rfl hroom ch)

theorem inDecodeCall_emit (y : Sym) : applyWalk 0xA#4 (.emitAtRoot y) (inDecodeCall s cur depth out k x)
    = inDecodeCall s cur depth (out ++ [y]) (k + 1) x := by
  simp [applyWalk, inDecodeCall, BitVec.ofNat_add]

theorem inDecodeCall_restart (y : Sym) : applyWalk 0xA#4 (.emitAndRestart y) (inDecodeCall s cur depth out k x)
    = inDecodeCall s s.root 0 (out ++ [y]) (k + 1) x := by
  simp [applyWalk, inDecodeCall, BitVec.ofNat_add]

theorem inDecodeCall_descend (c : NodeIdx) : applyWalk 0xA#4 (.descend c) (inDecodeCall s cur depth out k x)
    = inDecodeCall s c (depth + 1) out (k + 1) x := by
  simp [applyWalk, inDecodeCall, BitVec.ofNat_add]

/-- From inside a call whose result is `Ok(res)`, with room for `res`. -/
theorem run_decode_ok {res : List Sym} (hb : s.busy = false)
    (h : decodeFrom s.nodes s.root s.cfg cur depth out k x = .ok res) (hfit : res.length < Config.params.symFifoDepth) :
    Host.Core.run core (x.length + 1) (inDecodeCall s cur depth out k x) = .next { s with
      agenda := [], decState := .idle, cur := s.root, depth := 0, symFifo := res
      decNchr := BitVec.ofNat 32 (k + x.length), decNsym := BitVec.ofNat 32 res.length } := by
  induction x generalizing cur depth out k with
  | nil =>
    rw [decodeFrom_nil] at h
    split at h
    case isTrue => cases h
    case isFalse hplain =>
      cases h
      rw [run_command (s := inDecodeCall s cur depth res k []) rfl rfl (passesChecks_decEnd.2 ⟨hb, .inl rfl⟩), bodyOf,
        bodyDecEnd_plain fun hcut => hplain hcut.2]
      rfl
  | cons ch x ih =>
    have hroom : out.length ≠ Config.params.symFifoDepth := by
      have hle := length_le_of_decodeFrom_ok h
      omega
    rw [List.length_cons, run_decChr hb hroom, show k + (x.length + 1) = k + 1 + x.length by omega]
    cases hw : walk s.nodes s.cfg cur depth ch with
    | emitAtRoot y => rw [decodeFrom_emitAtRoot hw] at h; rw [inDecodeCall_emit]; exact ih h
    | emitAndRestart y => rw [decodeFrom_emitAndRestart hw] at h; rw [inDecodeCall_restart]; exact ih h
    | descend c => rw [decodeFrom_descend hw] at h; rw [inDecodeCall_descend]; exact ih h
    | abort e d1 d2 => rw [decodeFrom_abort hw] at h; cases h

/-- In ABORTED the characters are ignored, and DEC_END closes the call. -/
theorem run_decode_aborted (hb : s.busy = false) (hs : s.decState = .aborted)
    (ha : s.agenda = commandEvents (decStr x ++ [.decEnd])) :
    Host.Core.run core (x.length + 1) s
      = .next { s with agenda := [], decState := .idle, cur := s.root, depth := 0 } := by
  induction x generalizing s with
  | nil =>
    rw [run_command ha rfl (passesChecks_decEnd.2 ⟨hb, .inr hs⟩), bodyOf, bodyDecEnd_plain fun hcut => by
      cases hs.symm.trans hcut.1]
    rfl
  | cons ch x ih =>
    rw [List.length_cons, run_command ha rfl (passesChecks_decChr.2 ⟨hb, .inr hs⟩), bodyOf,
      bodyDecChr_ignored (by exact hs)]
    exact ih hb hs rfl

/-- What is left of a call that failed: it is closed and its output void, the error recorded, and the characters before
the error counted. -/
structure DecodeFailed (s t : State) (e : Err) (d1 d2 : Byte) (position : Nat) : Prop where
  closed : t.decState = .idle
  void : t.symFifo = []
  err : t.err = s.err ||| errFlag e
  errInfo : t.errInfo = firstError s (if e = .truncated then 0xB#4 else 0xA#4) d2 d1 (errCode e)
  counted : t.decNchr = BitVec.ofNat 32 position

theorem walk_abort_ne_truncated {nodes : Mem Node} {cfg : BitVec 5} {e : Err} {d1 d2 : Byte}
    (h : walk nodes cfg cur depth ch = .abort e d1 d2) : e ≠ .truncated := by
  rcases walk_abort h with rfl | rfl | rfl <;> decide

/-- From inside a call whose result is an error: no more symbols than characters, so the FIFO is never full. -/
theorem run_decode_err {e : Err} {d1 d2 : Byte} {position : Nat} (hb : s.busy = false)
    (h : decodeFrom s.nodes s.root s.cfg cur depth out k x = .err e d1 d2 position) (hout : out.length ≤ k)
    (hfit : k + x.length ≤ Config.params.symFifoDepth) :
    ∃ t, Host.Core.run core (x.length + 1) (inDecodeCall s cur depth out k x) = .next t
      ∧ DecodeFailed s t e d1 d2 position := by
  induction x generalizing cur depth out k with
  | nil =>
    rw [decodeFrom_nil] at h
    split at h
    case isTrue hcut =>
      obtain ⟨rfl, rfl, rfl, rfl⟩ := CallResult.err.inj h
      rw [run_command (s := inDecodeCall s cur depth out k []) rfl rfl (passesChecks_decEnd.2 ⟨hb, .inl rfl⟩), bodyOf,
        bodyDecEnd_truncated ⟨rfl, hcut⟩]
      exact ⟨_, rfl, rfl, rfl, rfl, rfl, rfl⟩
    case isFalse => cases h
  | cons ch x ih =>
    rw [List.length_cons] at hfit
    rw [List.length_cons, run_decChr hb (by omega)]
    cases hw : walk s.nodes s.cfg cur depth ch with
    | emitAtRoot y =>
      rw [decodeFrom_emitAtRoot hw] at h
      rw [inDecodeCall_emit]
      exact ih h (by rw [List.length_append, List.length_singleton]; omega) (by omega)
    | emitAndRestart y =>
      rw [decodeFrom_emitAndRestart hw] at h
      rw [inDecodeCall_restart]
      exact ih h (by rw [List.length_append, List.length_singleton]; omega) (by omega)
    | descend c =>
      rw [decodeFrom_descend hw] at h
      rw [inDecodeCall_descend]
      exact ih h (by omega) (by omega)
    | abort e' d1' d2' =>
      rw [decodeFrom_abort hw] at h
      obtain ⟨rfl, rfl, rfl, rfl⟩ := CallResult.err.inj h
      refine ⟨_, run_decode_aborted hb rfl rfl, rfl, rfl, rfl, ?_, rfl⟩
      rw [if_neg (walk_abort_ne_truncated hw)]
      rfl

end decodeCall

/-- Settles O35: DEC_START, then the run from inside the call. -/
theorem decodeCallReturnsItsSymbols : Obligations.DecodeCallReturnsItsSymbols := by
  intro s x out hb hs ha h hfit
  rw [run_decStart hb hs ha, run_decode_ok hb h hfit, Nat.zero_add]

/-- Settles O36: DEC_START, then the run from inside the call. -/
theorem decodeCallReportsItsError : Obligations.DecodeCallReportsItsError := by
  intro s x e d1 d2 k hb hs ha h hfit
  obtain ⟨t, hrun, hclosed, hvoid, herr, hinfo, hcount⟩ :=
    run_decode_err hb h (Nat.zero_le 0) (by rw [Nat.zero_add]; exact hfit)
  exact ⟨t, (run_decStart hb hs ha).trans hrun, hclosed, hvoid, herr, hinfo, hcount⟩

/-! ### An encode call -/

section encodeFrom

variable {code : Mem Code} {out res : List Bool} {k n : Nat} {b : Byte} {x : List Byte} {c : Code}

theorem encodeFrom_nil : encodeFrom code out k [] = .ok out := rfl

theorem encodeFrom_none (h : readCodeByte code b = none) : encodeFrom code out k (b :: x) = .err .unmapped b 0 k := by
  simp only [encodeFrom, h]

theorem encodeFrom_some (h : readCodeByte code b = some c) :
    encodeFrom code out k (b :: x) = encodeFrom code (out ++ c) (k + 1) x := by
  simp only [encodeFrom, h]

/-- A successful call goes on with the code of its next byte. -/
theorem encodeFrom_cons_ok (h : encodeFrom code out k (b :: x) = .ok res) :
    ∃ c, readCodeByte code b = some c ∧ encodeFrom code (out ++ c) (k + 1) x = .ok res := by
  cases hc : readCodeByte code b with
  | none => rw [encodeFrom_none hc] at h; cases h
  | some c => exact ⟨c, rfl, (encodeFrom_some hc).symm.trans h⟩

/-- The bits only grow. -/
theorem length_le_of_encodeFrom_ok (h : encodeFrom code out k x = .ok res) : out.length ≤ res.length := by
  induction x generalizing out k with
  | nil => rw [encodeFrom_nil] at h; cases h; exact le_rfl
  | cons b x ih =>
    obtain ⟨c, _, h⟩ := encodeFrom_cons_ok h
    have hle := ih h
    rw [List.length_append] at hle; omega

/-- `s` with an encode call open: the bits so far, the number of symbols encoded, and the symbols and the ENC_END still
to come. -/
def inEncodeCall (s : State) (out : List Bool) (k : Nat) (x : List Byte) : State :=
  { s with
    agenda := commandEvents (encStr x ++ [.encEnd]), encState := .active, encFifo := out
    encNsym := BitVec.ofNat 32 k, encNbits := BitVec.ofNat 32 out.length }

theorem run_encStart (hb : s.busy = false) (hs : s.encState ≠ .active)
    (ha : s.agenda = commandEvents (encodeCommands x)) :
    Host.Core.run core (n + 1) s = Host.Core.run core n (inEncodeCall s [] 0 x) :=
  run_command ha rfl (passesChecks_encStart.2 ⟨hb, EncState.ne_active_iff.1 hs⟩) n

theorem inEncodeCall_push : pushCode c (inEncodeCall s out k x) = inEncodeCall s (out ++ c) (k + 1) x := by
  simp [pushCode, inEncodeCall, BitVec.ofNat_add]

theorem run_encSym (hb : s.busy = false) (hc : readCodeByte s.code b = some c)
    (hfit : out.length + c.length ≤ Config.params.encFifoDepth) :
    Host.Core.run core (n + 1) (inEncodeCall s out k (b :: x))
      = Host.Core.run core n (inEncodeCall s (out ++ c) (k + 1) x) := by
  rw [run_command (s := inEncodeCall s out k (b :: x)) rfl rfl (passesChecks_encSym.2 ⟨hb, .inl rfl⟩),
    ← inEncodeCall_push]
  exact congrArg _ (bodyEncSym_push (s := inEncodeCall s out k x) rfl hc hfit)

/-- From inside a call whose result is `Ok(res)`, with room for `res`. -/
theorem run_encode_ok (hb : s.busy = false) (h : encodeFrom s.code out k x = .ok res)
    (hfit : res.length ≤ Config.params.encFifoDepth) :
    Host.Core.run core (x.length + 1) (inEncodeCall s out k x) = .next { s with
      agenda := [], encState := .idle, encFifo := res
      encNsym := BitVec.ofNat 32 (k + x.length), encNbits := BitVec.ofNat 32 res.length } := by
  induction x generalizing out k with
  | nil =>
    rw [encodeFrom_nil] at h
    cases h
    rw [run_command (s := inEncodeCall s res k []) rfl rfl (passesChecks_encEnd.2 ⟨hb, .inl rfl⟩)]
    rfl
  | cons b x ih =>
    obtain ⟨c, hc, h⟩ := encodeFrom_cons_ok h
    have hle := length_le_of_encodeFrom_ok h
    rw [List.length_append] at hle
    rw [List.length_cons, run_encSym hb hc (by omega), ih h, show k + 1 + x.length = k + (x.length + 1) by omega]

end encodeFrom

/-- Settles O49: ENC_START, then the run from inside the call. -/
theorem encodeCallReturnsItsBits : Obligations.EncodeCallReturnsItsBits := by
  intro s x bits hb hs ha h hfit
  rw [run_encStart hb hs ha, run_encode_ok hb h hfit, Nat.zero_add]

/-! ### The round trip -/

section roundTrip

variable {nodes : Mem Node} {root i : NodeIdx} {cfg : BitVec 5} {depth : BitVec 8} {out : List Sym} {k : Nat}
  {rest : List Byte} {p : Code} {y : Sym} {tbl : Mem Code}

/-- A code bit's character leads to the bit's child, whatever the configuration. -/
theorem dir_bitChar (b : Bool) (cfg : BitVec 5) : dir (bitChar b) cfg = some (if b then .right else .left) := by
  cases b <;> rfl

theorem walk_bitChar {l r : NodeIdx} (h : readNode nodes i = some (.internal l r)) (b : Bool) :
    walk nodes cfg i depth (bitChar b) = walkChild nodes depth (if b then r else l) := by
  rw [walk_internal (dir_bitChar b cfg) h]
  cases b <;> rfl

/-- An entry with a leaf below it is an internal node. -/
theorem LeafAt.internal {b : Bool} (h : LeafAt nodes i (b :: p) y) :
    ∃ l r, readNode nodes i = some (.internal l r) := by
  obtain ⟨j, hp, _⟩ := h
  obtain ⟨c, hc, _⟩ := pathTo_cons_iff.1 hp
  exact internal_of_child hc

/-- The characters of a path from the walker's position to a leaf within the depth limit emit the leaf's symbol. -/
theorem decodeFrom_path {b : Bool} (h : LeafAt nodes i (b :: p) y) (hdepth : depth.toNat + p.length < 127) :
    decodeFrom nodes root cfg i depth out k (bitChars (b :: p) ++ rest)
      = decodeFrom nodes root cfg root 0 (out ++ [y]) (k + (b :: p).length) rest := by
  obtain ⟨l, r, hn⟩ := h.internal
  rw [leafAt_cons hn] at h
  have hwalk := walk_bitChar (cfg := cfg) (depth := depth) hn b
  induction p generalizing i b l r depth k with
  | nil =>
    obtain ⟨j, hp, hj⟩ := h
    rw [pathTo_nil_iff.1 hp] at hj
    exact decodeFrom_emitAndRestart (hwalk.trans (walkChild_leaf hj depth))
  | cons b' p ih =>
    rw [List.length_cons] at hdepth
    obtain ⟨l', r', hn'⟩ := h.internal
    have hnat := depth_succ_toNat (depth := depth) (by omega)
    calc decodeFrom nodes root cfg i depth out k (bitChars (b :: b' :: p) ++ rest)
      _ = decodeFrom nodes root cfg (if b then r else l) (depth + 1) out (k + 1) (bitChars (b' :: p) ++ rest) :=
        decodeFrom_descend (hwalk.trans ((walkChild_internal hn' depth).trans (if_neg (by omega))))
      _ = decodeFrom nodes root cfg root 0 (out ++ [y]) (k + 1 + (b' :: p).length) rest :=
        ih (by rw [hnat]; omega) l' r' ((leafAt_cons hn').1 h) hn' (walk_bitChar hn' b')
      _ = _ := by rw [List.length_cons (a := b), Nat.add_assoc, Nat.add_comm 1]

/-- The characters of a generated code lead the walker from the root to its symbol and back. -/
theorem decodeFrom_code {c : Code} (h : genTable nodes root = .ok tbl) (hc : readCode tbl y = some c) :
    decodeFrom nodes root cfg root 0 out k (bitChars c ++ rest)
      = decodeFrom nodes root cfg root 0 (out ++ [y]) (k + c.length) rest := by
  obtain ⟨hwithin, _⟩ := exists_genTable_ok_iff.1 ⟨tbl, h⟩
  obtain ⟨q, hq, rfl⟩ := (readCode_genTable h).1 hc
  cases q with
  | nil =>
    obtain ⟨j, hp, hj⟩ := hq
    rw [pathTo_nil_iff.1 hp] at hj
    exact decodeFrom_emitAtRoot (walk_leaf_left (dir_bitChar false cfg) hj 0)
  | cons b q =>
    have hlen := hwithin.length_le hq
    exact decodeFrom_path hq (by simpa using hlen)

/-- A symbol byte below 128 is read as its symbol. -/
theorem readCodeByte_setWidth (code : Mem Code) (y : Sym) : readCodeByte code (y.setWidth 8) = readCode code y := by
  have hy : (y.setWidth 8).toNat = y.toNat := BitVec.toNat_setWidth_of_le (by decide)
  rw [readCodeByte_of_lt (by rw [hy]; exact y.isLt), hy, readCode]

/-- What an encode call adds for `ys` decodes to `ys`, from the root to the root. -/
theorem decodeFrom_encodeFrom {ys : List Sym} {bits res : List Bool} {n : Nat} (h : genTable nodes root = .ok tbl)
    (henc : encodeFrom tbl bits n (ys.map fun y => y.setWidth 8) = .ok res) :
    ∃ new, res = bits ++ new ∧ decodeFrom nodes root cfg root 0 out k (bitChars new) = .ok (out ++ ys) := by
  induction ys generalizing bits n out k with
  | nil =>
    rw [List.map_nil, encodeFrom_nil] at henc
    cases henc
    exact ⟨[], (List.append_nil _).symm, by rw [List.append_nil]; rfl⟩
  | cons y ys ih =>
    rw [List.map_cons] at henc
    obtain ⟨c, hc, henc⟩ := encodeFrom_cons_ok henc
    rw [readCodeByte_setWidth] at hc
    obtain ⟨new, hres, hdec⟩ := ih (out := out ++ [y]) (k := k + c.length) henc
    refine ⟨c ++ new, by rw [hres, List.append_assoc], ?_⟩
    rw [show bitChars (c ++ new) = bitChars c ++ bitChars new from List.map_append, decodeFrom_code h hc, hdec,
      List.append_assoc, List.singleton_append]

end roundTrip

/-- Settles O50: symbol by symbol, the bits of a code lead to its leaf and back to the root. -/
theorem decodingUndoesEncoding : Obligations.DecodingUndoesEncoding := by
  intro nodes root tbl cfg ys bits h henc
  obtain ⟨new, rfl, hdec⟩ := decodeFrom_encodeFrom (cfg := cfg) (out := []) (k := 0) h henc
  exact hdec

end Sys2Proof.Machine

/-! SUPPORT. The bus bridge (20_memory.md R59, R62) and the tree the host builds (45_host_reference.md R118, R119). -/

namespace Sys2Proof.Machine

/-! ### The bridge -/

/-- The register with a word index has that index: the two tables of 10_state.md R27 are inverse. -/
theorem regIndex_regOfIndex (k : BitVec 4) : regIndex (regOfIndex k) = k := by
  revert k; decide

/-- An aligned 32-bit word of the window is the transaction of the register at its offset. -/
theorem translateAccess_aligned {base : Nat} {a : BusAccess} {k : Nat} (hk : k < 16) (hbytes : a.bytes = 4)
    (haddr : a.addr = base + 4 * k) :
    translateAccess base a = .ok (match a.data with
      | none => .read (regOfIndex (BitVec.ofNat 4 k))
      | some d => .write (regOfIndex (BitVec.ofNat 4 k)) d) := by
  have hoff : a.addr - base = 4 * k := by omega
  rw [translateAccess, if_neg (not_not.2 hbytes), if_neg (by omega), if_neg (by omega), hoff,
    Nat.mul_div_cancel_left k (by decide)]
  cases a.data <;> rfl

/-- Every other access is refused. -/
theorem aligned_of_translateAccess {base : Nat} {a : BusAccess} {t : Transaction} (h : translateAccess base a = .ok t) :
    a.bytes = 4 ∧ ∃ k < 16, a.addr = base + 4 * k := by
  unfold translateAccess at h
  split at h
  case isTrue => cases h
  case isFalse hbytes =>
    split at h
    case isTrue => cases h
    case isFalse hwindow =>
      split at h
      case isTrue => cases h
      case isFalse halign => exact ⟨by omega, (a.addr - base) / 4, by omega, by omega⟩

/-- Settles O54: an access that passes the three refusals is one aligned word, and its register is the one at its
offset. -/
theorem bridgePassesAlignedWordsOnly : Obligations.BridgePassesAlignedWordsOnly := by
  intro base a
  refine ⟨⟨fun ⟨t, h⟩ => aligned_of_translateAccess h, fun ⟨hbytes, k, hk, haddr⟩ =>
    ⟨_, translateAccess_aligned hk hbytes haddr⟩⟩, fun k hk hbytes haddr =>
    ⟨regOfIndex (BitVec.ofNat 4 k), ?_, translateAccess_aligned hk hbytes haddr⟩⟩
  rw [regIndex_regOfIndex, BitVec.toNat_ofNat, Nat.mod_eq_of_lt hk]

/-! ### The tree builder -/

theorem takeLeast_cons (a b : WorkItem) (l : List WorkItem) : takeLeast a (b :: l) =
    if workLess (takeLeast b l).1 a then ((takeLeast b l).1, a :: (takeLeast b l).2) else (a, b :: l) := by
  rw [takeLeast]

/-- Taking the least item away leaves one fewer. -/
theorem takeLeast_length (a : WorkItem) (l : List WorkItem) : (takeLeast a l).2.length = l.length := by
  induction l generalizing a with
  | nil => rfl
  | cons b l ih =>
    rw [takeLeast_cons]
    split
    · rw [List.length_cons, List.length_cons, ih]
    · rfl

/-- One merge: the two least items give way to their tree, which is the newest item. -/
theorem mergeLoop_merge {x y a z : WorkItem} {work zs : List WorkItem} (h : takeLeast x (y :: work) = (a, z :: zs))
    (fuel : Nat) (entries : List Node) :
    mergeLoop (fuel + 1) (x :: y :: work) entries =
      mergeLoop fuel ((takeLeast z zs).2 ++ [{ freq := a.freq + (takeLeast z zs).1.freq, id := entries.length }])
        (entries ++ [.internal (BitVec.ofNat 8 a.id) (BitVec.ofNat 8 (takeLeast z zs).1.id)]) := by
  simp only [mergeLoop, h]

/-- The image merged from a working collection of `n` items and the newest one: a node for each merge after the entries
there are, the last of them the root. -/
structure MergedImage (n : Nat) (entries : List Node) (img : Image) : Prop where
  length : img.entries.length = entries.length + n
  root : img.root = BitVec.ofNat 8 (entries.length + n - 1)
  keeps : entries <+: img.entries

theorem mergeLoop_image {fuel : Nat} {older : List WorkItem} {last : WorkItem} {entries : List Node}
    (hfuel : older.length ≤ fuel) (hlast : last.id + 1 = entries.length) :
    MergedImage older.length entries (mergeLoop fuel (older ++ [last]) entries) := by
  induction fuel generalizing older last entries with
  | zero =>
    rw [List.length_eq_zero_iff.1 (Nat.le_zero.1 hfuel)]
    exact ⟨rfl, by rw [← hlast]; rfl, List.prefix_rfl⟩
  | succ fuel ih =>
    cases older with
    | nil => exact ⟨rfl, by rw [← hlast]; rfl, List.prefix_rfl⟩
    | cons x older =>
      obtain ⟨y, work, hwork⟩ := List.exists_cons_of_ne_nil (l := older ++ [last]) (by simp)
      have hlen := takeLeast_length x (y :: work)
      obtain ⟨⟨a, rest⟩, hleast⟩ : ∃ u, takeLeast x (y :: work) = u := ⟨_, rfl⟩
      rw [hleast, ← hwork, List.length_append, List.length_singleton] at hlen
      obtain ⟨z, zs, rfl⟩ := List.exists_cons_of_length_eq_add_one hlen
      have hzs : (takeLeast z zs).2.length = older.length := (takeLeast_length z zs).trans (Nat.succ.inj hlen)
      rw [List.cons_append, hwork, mergeLoop_merge hleast]
      have hmerged := ih (older := (takeLeast z zs).2)
        (last := { freq := a.freq + (takeLeast z zs).1.freq, id := entries.length })
        (entries := entries ++ [.internal (BitVec.ofNat 8 a.id) (BitVec.ofNat 8 (takeLeast z zs).1.id)])
        (by rw [hzs]; exact Nat.le_of_succ_le_succ hfuel) (by simp)
      obtain ⟨hlength, hroot, hkeeps⟩ := hmerged
      rw [hzs, List.length_append, List.length_singleton] at hlength hroot
      rw [List.length_cons]
      exact ⟨by omega, hroot.trans (by congr 1; omega), (List.prefix_append _ _).trans hkeeps⟩

/-- The working collection starts as the leaves in their order, the last of them the newest. -/
theorem buildTree_image (F : List (Sym × Nat)) (e : Sym × Nat) :
    MergedImage F.length ((F ++ [e]).map fun e => .leaf e.1) (buildTree (F ++ [e])) := by
  have hwork : (F ++ [e]).mapIdx (fun k e => WorkItem.mk e.2 k)
      = F.mapIdx (fun k e => WorkItem.mk e.2 k) ++ [⟨e.2, F.length⟩] := List.mapIdx_concat
  rw [buildTree, hwork, ← List.length_mapIdx (f := fun k e => WorkItem.mk e.2 k)]
  exact mergeLoop_image (by simp) (by simp)

/-- Settles O56: the merge keeps the leaves in front and adds a node for each merge, and 255 nodes have indices of 8
bits. -/
theorem builtTreeHasOneNodePerMerge : Obligations.BuiltTreeHasOneNodePerMerge := by
  intro F hne hle
  obtain ⟨F, e, rfl⟩ := (List.eq_nil_or_concat F).resolve_left hne
  rw [List.concat_eq_append] at hle ⊢
  obtain ⟨hlength, hroot, hkeeps⟩ := buildTree_image F e
  have hleaves := List.prefix_iff_eq_take.1 hkeeps
  simp only [List.length_map, List.length_append, List.length_singleton] at hle hlength hroot hleaves ⊢
  refine ⟨by omega, ?root, hleaves.symm⟩
  case root => rw [hroot, BitVec.toNat_ofNat]; omega

end Sys2Proof.Machine
